-- ==== Sys2Proof/Word.lean ====
section
/-! DEFINITION. The widths of the NXNode (spec/00_scope.md rules R5 and R12): names for the bit vectors the spec's rules use. -/

namespace Sys2Proof

/-- One bit (a `SLOT`, a sub-slot, the node's `DEFAULT`). -/
abbrev Bit := BitVec 1

/-- A register value or a data-memory element: 8 bits (R5 `XLEN`, `ELEM_BITS`). -/
abbrev Byte := BitVec 8

/-- An instruction word: 32 bits (R80), bit 31 the leftmost column of the encoding table (R8). -/
abbrev Word := BitVec 32

/-- An instruction index or a data-memory entry index: 10 bits (R5 `PCW`, `DMEM_ENTRIES`). -/
abbrev Index := BitVec 10

/-- An element address: 12 bits (R5 `EADDR_BITS`). -/
abbrev ElemAddr := BitVec 12

end Sys2Proof
end

