-- ==== Sys2Proof/Config.lean ====
section
/-! DEFINITION. The configuration record: every parameter the source leaves open (spec/00_scope.md rule R6), each with all the settings the spec names. The machine's state carries one such record, so a statement about every state is a statement about every setting. -/

namespace Sys2Proof

/-- `MEM_UNIFIED` (decision D1, rules R36 and R74). -/
inductive MemUnified where
  | separate | unified | refuseOverlap
  deriving DecidableEq, Repr

/-- `PC_FALLTHROUGH_1023` (decision D2, rule R26). -/
inductive PcFallthrough where
  | refuse | wrap
  deriving DecidableEq, Repr

/-- `RSVD_POLICY` (decision D3, rule R98). -/
inductive RsvdPolicy where
  | refuse | ignore
  deriving DecidableEq, Repr

/-- `STORE_MASK_POLARITY` (decision D6, rule R122). -/
inductive MaskPolarity where
  | oneUpdates | zeroUpdates
  deriving DecidableEq, Repr

/-- `BRANCH_OFFSET_NOT_TAKEN` (decision D7, rule R142). -/
inductive OffsetNotTaken where
  | refuse | apply | skip
  deriving DecidableEq, Repr

/-- `MARK_VALUE` (decision D8, rules R32 and R141). -/
inductive MarkValue where
  | target | next
  deriving DecidableEq, Repr

/-- `TRIG_WHILE_RUNNING` (decision D12, rule R242). -/
inductive TrigWhileRunning where
  | latch | drop | either | refuse
  deriving DecidableEq, Repr

/-- `TRIG_COALESCE` (decision D12, rule R236). -/
inductive TrigCoalesce where
  | oneBit | count
  deriving DecidableEq, Repr

/-- `SEND_OFFSET_RESOLVE` (decision D13, rules R170 and R171). -/
inductive OffsetResolve where
  | sender | target
  deriving DecidableEq, Repr

/-- `NET_ORDER` (decision D17, rule R69). -/
inductive NetOrder where
  | any | pairFifo
  deriving DecidableEq, Repr

/-- `CMP_SIGNED` (decision D26, rules R148 and R149). -/
inductive CmpSigned where
  | unsigned | signed
  deriving DecidableEq, Repr

/-- `ARITH_OVERFLOW` (decision D27, rules R201 and R202). -/
inductive ArithOverflow where
  | wrap | saturate
  deriving DecidableEq, Repr

/-- `TRUTH_ORDER` (decision D28, rule R190): the inputs named from index bit 2 down to index bit 0. -/
inductive TruthOrder where
  | abc | acb | bac | bca | cab | cba
  deriving DecidableEq, Repr

/-- The open parameters of rule R6. `ELEM_PLACEMENT` and `SEND_BAD_TARGET` have one setting each
and are fixed in the model; `NODE_ID` is a node's place in the mesh (decision D31). -/
structure Config where
  meshRows         : Nat
  meshCols         : Nat
  memUnified       : MemUnified
  pcFallthrough    : PcFallthrough
  rsvd             : RsvdPolicy
  maskPolarity     : MaskPolarity
  offsetNotTaken   : OffsetNotTaken
  markValue        : MarkValue
  trigWhileRunning : TrigWhileRunning
  trigCoalesce     : TrigCoalesce
  offsetResolve    : OffsetResolve
  /-- `NET_CAPACITY`: `none` is `unbounded`. -/
  netCapacity      : Option Nat
  netOrder         : NetOrder
  entryPc          : Index
  resetDefault     : Bit
  cmpSigned        : CmpSigned
  arithOverflow    : ArithOverflow
  truthOrder       : TruthOrder
  /-- `HOST`: whether the host may add messages during a run (rule R280). -/
  hostMoves        : Bool
  deriving DecidableEq, Repr

/-- The defaults of rule R6. DESIGN CHOICE (notes/assumptions/5): the spec gives the mesh size
no default; the model's launch takes the largest mesh a `SEND` can address. -/
def Config.default : Config :=
  { meshRows := 16, meshCols := 16, memUnified := .separate, pcFallthrough := .refuse,
    rsvd := .refuse, maskPolarity := .oneUpdates, offsetNotTaken := .refuse,
    markValue := .target, trigWhileRunning := .latch, trigCoalesce := .oneBit,
    offsetResolve := .sender, netCapacity := none, netOrder := .any, entryPc := 0,
    resetDefault := 0, cmpSigned := .unsigned, arithOverflow := .wrap, truthOrder := .abc,
    hostMoves := false }

/-- The mesh sizes rule R6 admits: 1 to 16 rows and 1 to 16 columns. -/
def Config.valid (c : Config) : Bool :=
  decide (1 ≤ c.meshRows) && decide (c.meshRows ≤ 16) &&
    decide (1 ≤ c.meshCols) && decide (c.meshCols ≤ 16)

/-- FREE VALUE (notes/assumptions/9). What a `MARK` records under `MARK_VALUE = next` for a branch at
index 1023 when `PC_FALLTHROUGH_1023` gives that index no successor: the spec states no value. -/
opaque Config.freeMark : Nat → Index

end Sys2Proof
end

