-- ==== Sys2Proof/Syntax.lean ====
section
/-! DEFINITION. The 17 instructions (spec/30_encoding.md rules R82 to R97), one constructor per row of spec/opcode_table.json. A field the instruction ignores whatever its other fields hold (rule R99) is no part of the syntax. -/

namespace Sys2Proof

/-- A general register `R0` .. `R7`: the value of a 3-bit register field (R20). -/
abbrev Reg := BitVec 3

/-- A node's coordinates in the mesh (`NODE_ROW`, `NODE_COL`, R85; `NODE_ID`, R6). -/
structure NodeId where
  row : BitVec 4
  col : BitVec 4
  deriving DecidableEq, Repr

/-- The fields that name one element: `ADDRESS`, `SLOT`, `OFFSET` (R50, R91). -/
structure ElemRef where
  address : Index
  slot    : Bit
  offset  : BitVec 2
  deriving DecidableEq, Repr

/-- The fields every `BRANCH` uses: `MARK`, `IDLE`, `OFFSET`, `PC` (R84, R92). -/
structure BranchCtl where
  mark   : Bool
  idle   : Bool
  offset : BitVec 2
  target : Index
  deriving DecidableEq, Repr

/-- The eight selectors of `SHUFL`: `b i` is the number of the source bit for target bit `i` (R88). -/
structure Selectors where
  b7 : BitVec 3
  b6 : BitVec 3
  b5 : BitVec 3
  b4 : BitVec 3
  b3 : BitVec 3
  b2 : BitVec 3
  b1 : BitVec 3
  b0 : BitVec 3
  deriving DecidableEq, Repr

/-- The instructions, in the order of spec/opcode_table.json. -/
inductive Instr where
  /-- R121 -/
  | load (tgt : Reg) (elem : ElemRef)
  /-- R122 -/
  | store (src : Reg) (elem : ElemRef) (mask : Byte)
  /-- R144 -/
  | jump (ctl : BranchCtl)
  /-- R145 -/
  | wait (ctl : BranchCtl)
  /-- R146 -/
  | beq (ctl : BranchCtl) (srcA srcB : Reg)
  /-- R147 -/
  | bne (ctl : BranchCtl) (srcA srcB : Reg)
  /-- R148 -/
  | bge (ctl : BranchCtl) (srcA srcB : Reg)
  /-- R149 -/
  | blt (ctl : BranchCtl) (srcA srcB : Reg)
  /-- R150 -/
  | beqz (ctl : BranchCtl) (srcA : Reg)
  /-- R151 -/
  | bnez (ctl : BranchCtl) (srcA : Reg)
  /-- R170 -/
  | send (src : Reg) (dest : NodeId) (elem : ElemRef) (trig : Bool)
  /-- R190. Exactly one of `imm` and `srcC` is used, as `si` says; `Instr.wellFormed` asks that the other be 0. -/
  | truth (tgt srcA srcB srcC : Reg) (si : Bool) (imm table : Byte)
  /-- R201 -/
  | add (tgt srcA srcB : Reg)
  /-- R202 -/
  | sub (tgt srcA srcB : Reg)
  /-- R203 -/
  | andr (tgt srcA : Reg)
  /-- R204 -/
  | orr (tgt srcA : Reg)
  /-- R220 -/
  | shufl (tgt src : Reg) (sel : Selectors)
  deriving DecidableEq, Repr

end Sys2Proof
end

