-- ==== Sys2Proof/WellFormed.lean ====
section
/-! DEFINITION. Well-formed instructions: the form an encoder writes, in which an ignored field is 0 (spec/30_encoding.md rule R99). -/

namespace Sys2Proof

/-- The one field whose use depends on another field is `TRUTH`'s third input (R95): with `SI` = 1 the
`SRC_C` field is ignored and with `SI` = 0 the `IMM` field is, and an encoder writes the ignored one
as 0 (R99). Every value of every other field is meaningful (R96). -/
def Instr.wellFormed : Instr → Bool
  | .load _ _ => true
  | .store _ _ _ => true
  | .jump _ => true
  | .wait _ => true
  | .beq _ _ _ => true
  | .bne _ _ _ => true
  | .bge _ _ _ => true
  | .blt _ _ _ => true
  | .beqz _ _ => true
  | .bnez _ _ => true
  | .send _ _ _ _ => true
  | .truth _ _ _ srcC si imm _ => if si then srcC == 0#3 else imm == 0#8
  | .add _ _ _ => true
  | .sub _ _ _ => true
  | .andr _ _ => true
  | .orr _ _ => true
  | .shufl _ _ _ => true

end Sys2Proof
end

