-- ==== Sys2Proof/Decode.lean ====
section
/-! DEFINITION. The decoder of spec/30_encoding.md rule R102, total on every 32-bit word, and the encoder written from the same format tables (rules R82 to R88). -/

namespace Sys2Proof

/-! ### Field groups shared by the formats (R89) -/

/-- `OFFSET` [23:22], `ADDRESS` [21:12], `SLOT` [11] of `LOAD`, `STORE`, `SEND`. -/
def decodeElem (w : Word) : ElemRef :=
  { address := w.extractLsb' 12 10, slot := w.extractLsb' 11 1, offset := w.extractLsb' 22 2 }

/-- `MARK` [28], `IDLE` [24], `OFFSET` [23:22], `PC` [21:12] of `BRANCH` (R84). -/
def decodeCtl (w : Word) : BranchCtl :=
  { mark := w.extractLsb' 28 1 == 1#1, idle := w.extractLsb' 24 1 == 1#1,
    offset := w.extractLsb' 22 2, target := w.extractLsb' 12 10 }

/-- `NODE_ROW` [10:7], `NODE_COL` [6:3] of `SEND` (R85). -/
def decodeNodeId (w : Word) : NodeId :=
  { row := w.extractLsb' 7 4, col := w.extractLsb' 3 4 }

/-- `B_i = w[8+3i : 6+3i]` (R88). -/
def decodeSelectors (w : Word) : Selectors :=
  { b7 := w.extractLsb' 27 3, b6 := w.extractLsb' 24 3, b5 := w.extractLsb' 21 3,
    b4 := w.extractLsb' 18 3, b3 := w.extractLsb' 15 3, b2 := w.extractLsb' 12 3,
    b1 := w.extractLsb' 9 3, b0 := w.extractLsb' 6 3 }

/-- `w[2:0]`: `SRC` or `SRC_A`. -/
def fieldSrcA (w : Word) : Reg := w.extractLsb' 0 3

/-- `w[5:3]`: `TGT`. -/
def fieldTgt (w : Word) : Reg := w.extractLsb' 3 3

/-- `w[8:6]`: `SRC_B`. -/
def fieldSrcB (w : Word) : Reg := w.extractLsb' 6 3

/-- `w[11:9]`: `SRC_C`. -/
def fieldSrcC (w : Word) : Reg := w.extractLsb' 9 3

/-! ### Formats -/

/-- The `BRANCH` format: `COMP` = `w[27:25]` selects the instruction (R93). -/
def decodeBranch (w : Word) : Instr :=
  match w.extractLsb' 25 3 with
  | 0b000#3 => .jump (decodeCtl w)
  | 0b001#3 => .wait (decodeCtl w)
  | 0b010#3 => .beq (decodeCtl w) (fieldSrcA w) (fieldSrcB w)
  | 0b011#3 => .bne (decodeCtl w) (fieldSrcA w) (fieldSrcB w)
  | 0b100#3 => .bge (decodeCtl w) (fieldSrcA w) (fieldSrcB w)
  | 0b101#3 => .blt (decodeCtl w) (fieldSrcA w) (fieldSrcB w)
  | 0b110#3 => .beqz (decodeCtl w) (fieldSrcA w)
  | _ => .bnez (decodeCtl w) (fieldSrcA w)

/-- The `ARITH` format: `OP` = `w[23:22]` selects the instruction (R94). -/
def decodeArith (w : Word) : Instr :=
  match w.extractLsb' 22 2 with
  | 0b00#2 => .add (fieldTgt w) (fieldSrcA w) (fieldSrcB w)
  | 0b01#2 => .sub (fieldTgt w) (fieldSrcA w) (fieldSrcB w)
  | 0b10#2 => .andr (fieldTgt w) (fieldSrcA w)
  | _ => .orr (fieldTgt w) (fieldSrcA w)

/-- The `TRUTH` format (R86). The field `SI` makes the decoder ignore is read as 0 (R99). -/
def decodeTruth (w : Word) : Instr :=
  let si := w.extractLsb' 20 1 == 1#1
  .truth (fieldTgt w) (fieldSrcA w) (fieldSrcB w) (if si then 0#3 else fieldSrcC w) si
    (if si then w.extractLsb' 12 8 else 0#8) (w.extractLsb' 21 8)

/-- The instruction a word's non-reserved bits name (R81, R102). -/
def decodeFields (w : Word) : Instr :=
  if w.extractLsb' 30 2 = 0b11#2 then .shufl (fieldTgt w) (fieldSrcA w) (decodeSelectors w)
  else
    match w.extractLsb' 29 3 with
    | 0b000#3 => .load (fieldTgt w) (decodeElem w)
    | 0b001#3 => .store (fieldSrcA w) (decodeElem w) (w.extractLsb' 3 8)
    | 0b010#3 => decodeBranch w
    | 0b011#3 => .send (fieldSrcA w) (decodeNodeId w) (decodeElem w) (w.extractLsb' 24 1 == 1#1)
    | 0b100#3 => decodeTruth w
    | _ => decodeArith w

/-- Whether every `RSVD` bit of the word's format is 0 (the fields of rule R98's table). -/
def rsvdClear (w : Word) : Bool :=
  match w.extractLsb' 29 3 with
  | 0b000#3 => w.extractLsb' 24 5 == 0#5 && w.extractLsb' 6 5 == 0#5 && w.extractLsb' 0 3 == 0#3
  | 0b001#3 => w.extractLsb' 24 5 == 0#5
  | 0b010#3 => w.extractLsb' 9 3 == 0#3 && w.extractLsb' 3 3 == 0#3
  | 0b011#3 => w.extractLsb' 25 4 == 0#4
  | 0b100#3 => true
  | 0b101#3 => w.extractLsb' 24 5 == 0#5 && w.extractLsb' 9 13 == 0#13
  | _ => true

/-- What decoding a word answers: an instruction, or the rejection `ReservedNonZero(w)` (R98). -/
inductive Decoded where
  | instr (i : Instr)
  | reserved (w : Word)
  deriving DecidableEq, Repr

/-- The decoder of rule R102. -/
def decode (p : RsvdPolicy) (w : Word) : Decoded :=
  match p with
  | .ignore => .instr (decodeFields w)
  | .refuse => if rsvdClear w then .instr (decodeFields w) else .reserved w

/-- The instruction the decoder reads from the word `w` of an opcode-table row of `nbits` bits, under the
default `RSVD_POLICY`. An instruction is one whole 32-bit word, so it has no byte order (R53). -/
def decodeTableWord (nbits w : Nat) : Option Instr :=
  if nbits ≤ 32 then
    match decode .refuse (BitVec.ofNat 32 (w % 2 ^ nbits)) with
    | .instr i => some i
    | .reserved _ => none
  else none

/-! ### The encoder: each field at the place its format table gives it; every `RSVD` and every ignored bit is 0 -/

/-- The field `f` with its least significant bit at bit `lo` of an otherwise zero word. -/
def place {k : Nat} (f : BitVec k) (lo : Nat) : Word := f.setWidth 32 <<< lo

/-- A one-bit field. -/
def placeBit (b : Bool) (lo : Nat) : Word := place (BitVec.ofBool b) lo

/-- `OFFSET`, `ADDRESS`, `SLOT` in place. -/
def encodeElem (r : ElemRef) : Word := place r.offset 22 ||| place r.address 12 ||| place r.slot 11

/-- The `BRANCH` opcode, `COMP` and the fields every branch uses, in place. -/
def encodeCtl (comp : BitVec 3) (c : BranchCtl) : Word :=
  place 0b010#3 29 ||| placeBit c.mark 28 ||| place comp 25 ||| placeBit c.idle 24 |||
    place c.offset 22 ||| place c.target 12

/-- The eight selectors in place. -/
def encodeSelectors (s : Selectors) : Word :=
  place s.b7 27 ||| place s.b6 24 ||| place s.b5 21 ||| place s.b4 18 |||
    place s.b3 15 ||| place s.b2 12 ||| place s.b1 9 ||| place s.b0 6

/-- The word of an instruction (R82 to R88, R105). -/
def encode : Instr → Word
  | .load tgt r => place 0b000#3 29 ||| encodeElem r ||| place tgt 3
  | .store src r mask => place 0b001#3 29 ||| encodeElem r ||| place mask 3 ||| place src 0
  | .jump c => encodeCtl 0b000#3 c
  | .wait c => encodeCtl 0b001#3 c
  | .beq c a b => encodeCtl 0b010#3 c ||| place b 6 ||| place a 0
  | .bne c a b => encodeCtl 0b011#3 c ||| place b 6 ||| place a 0
  | .bge c a b => encodeCtl 0b100#3 c ||| place b 6 ||| place a 0
  | .blt c a b => encodeCtl 0b101#3 c ||| place b 6 ||| place a 0
  | .beqz c a => encodeCtl 0b110#3 c ||| place a 0
  | .bnez c a => encodeCtl 0b111#3 c ||| place a 0
  | .send src d r trig =>
      place 0b011#3 29 ||| placeBit trig 24 ||| encodeElem r ||| place d.row 7 ||| place d.col 3 |||
        place src 0
  | .truth tgt a b c si imm table =>
      place 0b100#3 29 ||| place table 21 ||| placeBit si 20 ||| place imm 12 ||| place c 9 |||
        place b 6 ||| place tgt 3 ||| place a 0
  | .add tgt a b => place 0b101#3 29 ||| place 0b00#2 22 ||| place b 6 ||| place tgt 3 ||| place a 0
  | .sub tgt a b => place 0b101#3 29 ||| place 0b01#2 22 ||| place b 6 ||| place tgt 3 ||| place a 0
  | .andr tgt a => place 0b101#3 29 ||| place 0b10#2 22 ||| place tgt 3 ||| place a 0
  | .orr tgt a => place 0b101#3 29 ||| place 0b11#2 22 ||| place tgt 3 ||| place a 0
  | .shufl tgt src sel => place 0b11#2 30 ||| encodeSelectors sel ||| place tgt 3 ||| place src 0

end Sys2Proof
end

