-- ==== Sys2Proof/Machine/State.lean ====
section
/-! DEFINITION. The machine's state: the nodes of the mesh, the network between them and the interleaving still to come (spec/10_state.md rule R42, spec/00_scope.md rule R13), as plain data; why a step can stop; the state after reset. -/

namespace Sys2Proof.Machine

/-- The spec defines no exception, trap or fault of the hardware (R230): no step ends in a fault. -/
inductive Fault where
  deriving DecidableEq, Repr

/-- What was read although the launch and the run gave it no value (R43, R232). Registers and `MARK_ADDR`
are not among these: every register holds a value from reset on (notes/assumptions/1). -/
inductive Unwritten where
  /-- The data element at this element address. -/
  | element (ea : ElemAddr)
  /-- The instruction word at this index. -/
  | instruction (pc : Index)
  deriving DecidableEq, Repr

/-- The spec's closed list of refusals (R232), and the rejection of an instruction without a meaning.
Every one is safe: the run stops where the hardware may go on. -/
inductive Refusal where
  /-- Raised by `exec`'s arm of an instruction that has no meaning yet; no arm does. Safe. -/
  | notModelled (mnemonic : String)
  /-- Raised by a node's step that fetches a word with a reserved bit set, under `RSVD_POLICY = refuse` (R98). Safe. -/
  | reservedNonZero (w : Word)
  /-- Raised by an instruction that would advance past index 1023, under `PC_FALLTHROUGH_1023 = refuse` (R26). Safe. -/
  | fallOffEnd
  /-- Raised by `LOAD`, by `STORE` when it keeps some old bits, and by a fetch, on storage with no value (R43). Safe. -/
  | unwrittenRead (what : Unwritten)
  /-- Raised by a conditional branch not taken with `OFFSET` other than `2b00`, under `BRANCH_OFFSET_NOT_TAKEN = refuse` (R142). Safe. -/
  | branchOffsetNotTaken
  /-- Raised by `SEND` to the sender's own coordinates (R170). Safe. -/
  | sendToSelf
  /-- Raised by `SEND`, a delivery or a host move whose target is no node of the mesh (R170). Safe. -/
  | sendOutsideMesh
  /-- Raised by the fetch of an entry written since launch, under `MEM_UNIFIED = unified` (R74). Safe. -/
  | fetchOfWrittenEntry
  /-- Raised by `LOAD`, `STORE` or a delivery at an entry that holds program text, under `MEM_UNIFIED = refuse_overlap` (R74). Safe. -/
  | dataAccessToProgramText
  /-- Raised by the delivery of a trigger to a running node, under `TRIG_WHILE_RUNNING = refuse` (R242). Safe. -/
  | triggerWhileRunning
  deriving DecidableEq, Repr

/-- One node (R42). -/
structure Node where
  /-- `R0` .. `R7` (R20). -/
  regs     : Vector Byte 8
  /-- The program counter: an instruction index (R24). -/
  pc       : Index
  /-- `IDLE` (R28). -/
  idle     : Bool
  /-- `DEFAULT`, the default sub-slot (R29). -/
  dflt     : Bit
  /-- `MARK_ADDR`, the re-trigger address (R32). -/
  markAddr : Index
  /-- `TRIG_PEND` (R40): triggers received and not consumed; at most 1 under `TRIG_COALESCE = one_bit` (R236). -/
  trigPend : Nat
  /-- The data memory by element address (R35), in canonical form (`Memory.wf`). -/
  dmem     : List Host.Cell
  /-- The instruction store by instruction index (R36), keys strictly rising. -/
  imem     : List (Nat × Word)
  /-- The entries a `STORE` or a delivery has written since launch (R74), strictly rising. -/
  written  : List Nat
  deriving DecidableEq, Repr

/-- The element a message names: resolved at the sender, or left to the target (`SEND_OFFSET_RESOLVE`, R171). -/
inductive MsgAddr where
  | resolved (ea : ElemAddr)
  | deferred (elem : ElemRef)
  deriving DecidableEq, Repr

/-- Who sent a message (R171): read only by `NET_ORDER = pair_fifo`. -/
inductive Sender where
  | node (id : NodeId)
  | host
  deriving DecidableEq, Repr

/-- A message in flight (R171). -/
structure Message where
  target : NodeId
  addr   : MsgAddr
  data   : Byte
  trig   : Bool
  sender : Sender
  deriving DecidableEq, Repr

/-- One move of the interleaving (R13). -/
inductive Move where
  /-- The node takes its own step: a wake when it is idle, else its next instruction (R13 a, b). -/
  | node (id : NodeId)
  /-- The network delivers the message at this place of `net` (R13 c). `keep` is the outcome of
  `TRIG_WHILE_RUNNING = either` and is read under no other setting (R242). -/
  | deliver (at_ : Nat) (keep : Bool)
  /-- The host adds a message (R280). -/
  | inject (m : Message)
  deriving DecidableEq, Repr

/-- The whole machine. -/
structure State where
  /-- The open parameters (R6); no step changes them. -/
  cfg    : Config
  /-- The nodes by `NodeId.key`, keys strictly rising; a node not listed is as at launch (R42). -/
  nodes  : List (Nat × Node)
  /-- `NET`, the messages in flight (R39), oldest first. -/
  net    : List Message
  /-- The interleaving to come (R13): the model's own field, an input. A step makes the first move and puts it last. -/
  sched  : List Move
  /-- The node whose step it is: the model's own field; `exec` acts on this node. -/
  active : NodeId
  /-- How many steps have been made: the model's own field, read only as the argument of a free value. -/
  ticks  : Nat
  deriving DecidableEq, Repr

/-- What a step answers. -/
abbrev Result := Host.Outcome State Fault Refusal

/-- A node at launch (R42, R270). DESIGN CHOICE (notes/assumptions/1 and 2): the spec gives the registers and
`MARK_ADDR` no value; every run of the model starts them at 0. Data elements and instruction words
that a launch does not list have no value. -/
def Node.launch (c : Config) : Node :=
  { regs := Vector.replicate 8 0#8, pc := c.entryPc, idle := false, dflt := c.resetDefault,
    markAddr := 0, trigPend := 0, dmem := [], imem := [], written := [] }

/-- The machine after reset (R42, R270): every node at launch, no message in flight, default parameters.
DESIGN CHOICE (notes/assumptions/5 and 6): the spec fixes no mesh, no node identity and no order of steps; here
node (2, 3), the sender of the spec's own `SEND` vectors, is the one that moves. -/
def State.reset : State :=
  { cfg := Config.default, nodes := [], net := [], sched := [.node ⟨2, 3⟩], active := ⟨2, 3⟩,
    ticks := 0 }

end Sys2Proof.Machine
end

