-- ==== Sys2Proof/Machine/Operands.lean ====
section
/-! DEFINITION. The operand forms: the sub-slot selector, the element address, the store mask, `TRUTH`'s table lookup, `SHUFL`'s selectors and the arithmetic of `ARITH`. -/

namespace Sys2Proof.Machine

/-- `sub_sel(o, d) = o[1] ? o[0] : (o[0] ^ d)` (R52). -/
def subSel (o : BitVec 2) (d : Bit) : Bit :=
  if o.getLsbD 1 then BitVec.ofBool (o.getLsbD 0) else BitVec.ofBool (o.getLsbD 0) ^^^ d

/-- `full_address = {ADDRESS, SLOT, sub}` (R50), for a node whose `DEFAULT` is `d`. -/
def elemAddr (r : ElemRef) (d : Bit) : ElemAddr := r.address ++ r.slot ++ subSel r.offset d

/-- The index of the entry that holds an element (R35, R51). -/
def entryOf (ea : ElemAddr) : Nat := ea.toNat / 4

/-- The element bits a `STORE` updates (R122 with `STORE_MASK_POLARITY`). -/
def updateMask (p : MaskPolarity) (mask : Byte) : Byte :=
  match p with
  | .oneUpdates => mask
  | .zeroUpdates => ~~~mask

/-- The element after a `STORE` of `v` over `old` where the bits of `m` are updated (R122). -/
def mergeBits (m old v : Byte) : Byte := (old &&& ~~~m) ||| (v &&& m)

/-- The address a message's element has in a target whose `DEFAULT` is `d` (R68, R171). -/
def MsgAddr.resolve (a : MsgAddr) (d : Bit) : ElemAddr :=
  match a with
  | .resolved ea => ea
  | .deferred r => elemAddr r d

/-- What a `SEND` puts into its message (R170 with `SEND_OFFSET_RESOLVE`); `d` is the sender's `DEFAULT`. -/
def messageAddr (p : OffsetResolve) (r : ElemRef) (d : Bit) : MsgAddr :=
  match p with
  | .sender => .resolved (elemAddr r d)
  | .target => .deferred r

/-- The table index of three input bits (R190 with `TRUTH_ORDER`): the order's first name is index bit 2. -/
def truthIndex (o : TruthOrder) (a b c : Bool) : Nat :=
  match o with
  | .abc => 4 * a.toNat + 2 * b.toNat + c.toNat
  | .acb => 4 * a.toNat + 2 * c.toNat + b.toNat
  | .bac => 4 * b.toNat + 2 * a.toNat + c.toNat
  | .bca => 4 * b.toNat + 2 * c.toNat + a.toNat
  | .cab => 4 * c.toNat + 2 * a.toNat + b.toNat
  | .cba => 4 * c.toNat + 2 * b.toNat + a.toNat

/-- The byte whose bit `i` is `f i`. -/
def byteOfBits (f : Nat → Bool) : Byte :=
  BitVec.ofBool (f 7) ++ BitVec.ofBool (f 6) ++ BitVec.ofBool (f 5) ++ BitVec.ofBool (f 4) ++
    BitVec.ofBool (f 3) ++ BitVec.ofBool (f 2) ++ BitVec.ofBool (f 1) ++ BitVec.ofBool (f 0)

/-- The bitwise lookup of `TRUTH` (R190): `r[i] = TABLE[idx]`. -/
def truthByte (o : TruthOrder) (table a b c : Byte) : Byte :=
  byteOfBits fun i => table.getLsbD (truthIndex o (a.getLsbD i) (b.getLsbD i) (c.getLsbD i))

/-- The selector of target bit `i` (R88). -/
def selectorAt (s : Selectors) (i : Nat) : BitVec 3 :=
  match i with
  | 0 => s.b0
  | 1 => s.b1
  | 2 => s.b2
  | 3 => s.b3
  | 4 => s.b4
  | 5 => s.b5
  | 6 => s.b6
  | _ => s.b7

/-- The gather of `SHUFL` (R220): `r[i] = S[B_i]`. -/
def shuflByte (sel : Selectors) (v : Byte) : Byte :=
  byteOfBits fun i => v.getLsbD (selectorAt sel i).toNat

/-- The sum of `ADD` (R201 with `ARITH_OVERFLOW`), computed exactly and then narrowed. -/
def addByte (p : ArithOverflow) (a b : Byte) : Byte :=
  match p with
  | .wrap => BitVec.ofNat 8 (a.toNat + b.toNat)
  | .saturate => BitVec.ofNat 8 (min 255 (a.toNat + b.toNat))

/-- The difference of `SUB` (R202 with `ARITH_OVERFLOW`), computed exactly and then narrowed. -/
def subByte (p : ArithOverflow) (a b : Byte) : Byte :=
  match p with
  | .wrap => BitVec.ofInt 8 ((a.toNat : Int) - (b.toNat : Int))
  | .saturate => BitVec.ofNat 8 (a.toNat - b.toNat)

/-- `{8{&(v)}}` (R203). -/
def andReduce (v : Byte) : Byte := if v = 0xFF#8 then 0xFF#8 else 0x00#8

/-- `{8{|(v)}}` (R204). -/
def orReduce (v : Byte) : Byte := if v = 0x00#8 then 0x00#8 else 0xFF#8

end Sys2Proof.Machine
end

