-- ==== Sys2Proof/Machine/Flags.lean ====
section
/-! DEFINITION. The NXNode has no condition codes (spec/10_state.md rule R31); its one-bit and control state is `IDLE`, `DEFAULT` and `MARK_ADDR`, written by `BRANCH` alone. This file computes the conditions of the compares, the successor of the program counter and the new control state of a branch. -/

namespace Sys2Proof.Machine

/-- `a >= b` (R148 with `CMP_SIGNED`). -/
def condGe (p : CmpSigned) (a b : Byte) : Bool :=
  match p with
  | .unsigned => decide (b.toNat ≤ a.toNat)
  | .signed => decide (b.toInt ≤ a.toInt)

/-- `a < b` (R149 with `CMP_SIGNED`). -/
def condLt (p : CmpSigned) (a b : Byte) : Bool :=
  match p with
  | .unsigned => decide (a.toNat < b.toNat)
  | .signed => decide (a.toInt < b.toInt)

/-- The index after `pc`; `none` where the spec refuses to say (R25, R26). -/
def nextPc (p : PcFallthrough) (pc : Index) : Option Index :=
  if pc = 1023#10 then
    match p with
    | .refuse => none
    | .wrap => some 0#10
  else some (pc + 1#10)

/-- The address a taken branch at `pc` with `MARK` = 1 records (R32, R141 with `MARK_VALUE`). Under `next` at
index 1023 with no successor the spec states no value: a free one (notes/assumptions/9). -/
def markFor (c : Config) (ctl : BranchCtl) (pc : Index) (ticks : Nat) : Index :=
  match c.markValue with
  | .target => ctl.target
  | .next => (nextPc c.pcFallthrough pc).getD (Config.freeMark ticks)

/-- A node after a taken branch (R141, R142). -/
def takenNode (c : Config) (ctl : BranchCtl) (ticks : Nat) (n : Node) : Node :=
  { n with
    pc := ctl.target
    idle := if ctl.idle then true else n.idle
    markAddr := if ctl.mark then markFor c ctl n.pc ticks else n.markAddr
    dflt := subSel ctl.offset n.dflt }

/-- `DEFAULT` after a branch not taken; `none` where the spec refuses to say (R142 with `BRANCH_OFFSET_NOT_TAKEN`). -/
def notTakenDefault (p : OffsetNotTaken) (o : BitVec 2) (d : Bit) : Option Bit :=
  if o = 0b00#2 then some d
  else
    match p with
    | .refuse => none
    | .apply => some (subSel o d)
    | .skip => some d

end Sys2Proof.Machine
end

