-- ==== Sys2Proof/Machine/Ops.lean ====
section
/-! DEFINITION. The named operations over the state: keyed lists, data memory, nodes and registers, fetch, triggers (the machine's only asynchronous event; it has no exceptions, spec/60_exceptions.md rule R230), and the ways an instruction ends. -/

namespace Sys2Proof.Machine

/-! ### Keyed lists in canonical form: keys strictly rising -/

/-- The value at a key. -/
def lookup {α : Type} : List (Nat × α) → Nat → Option α
  | [], _ => none
  | (k, v) :: rest, a => if a = k then some v else lookup rest a

/-- The list with this value at this key, in its place by key. -/
def insertAt {α : Type} : List (Nat × α) → Nat → α → List (Nat × α)
  | [], a, x => [(a, x)]
  | (k, v) :: rest, a, x =>
    if a < k then (a, x) :: (k, v) :: rest
    else if a = k then (a, x) :: rest
    else (k, v) :: insertAt rest a x

/-- The list without this key. -/
def eraseAt {α : Type} (m : List (Nat × α)) (a : Nat) : List (Nat × α) :=
  m.filter fun e => e.1 != a

/-- Every number is below the bound and above the one before it. -/
def rising (bound : Nat) : List Nat → Bool
  | [] => true
  | k :: rest => decide (k < bound) && rest.all (fun j => decide (k < j)) && rising bound rest

/-- A set of numbers with one more, in rising order. -/
def insertNat : List Nat → Nat → List Nat
  | [], a => [a]
  | k :: rest, a =>
    if a < k then a :: k :: rest
    else if a = k then k :: rest
    else k :: insertNat rest a

/-! ### Data memory (R35, R59) -/

/-- What a data element that neither the launch nor the run has written reads as: no value (R42, R43). -/
def Memory.unlisted : Option Byte := none

/-- The element at an address. -/
def Memory.read (m : List Host.Cell) (a : Nat) : Option Byte :=
  match lookup m a with
  | some v => some v
  | none => Memory.unlisted

/-- The memory with one element written; a value an unlisted element reads as is not listed. -/
def Memory.write (m : List Host.Cell) (a : Nat) (v : Byte) : List Host.Cell :=
  if Memory.unlisted = some v then eraseAt m a else insertAt m a v

/-- The canonical form: addresses strictly rising within the 4096 elements (R35), no entry equal to what an
unlisted element reads as. -/
def Memory.wf (m : List Host.Cell) : Bool :=
  rising 4096 (m.map Prod.fst) && m.all fun e => decide (Memory.unlisted ≠ some e.2)

/-! ### Nodes and registers -/

/-- A node's place in the mesh as one number below 256 (R172). -/
def nodeKey (c : NodeId) : Nat := 16 * c.row.toNat + c.col.toNat

/-- Whether a node exists at these coordinates: the mesh is numbered from 0 (decision D31, R247). -/
def inMesh (c : Config) (id : NodeId) : Bool :=
  decide (id.row.toNat < c.meshRows) && decide (id.col.toNat < c.meshCols)

/-- The node at these coordinates. -/
def State.node (s : State) (id : NodeId) : Node :=
  (lookup s.nodes (nodeKey id)).getD (Node.launch s.cfg)

/-- The machine with this node there; a node as at launch is not listed. -/
def State.setNode (s : State) (id : NodeId) (n : Node) : State :=
  { s with
    nodes := if n = Node.launch s.cfg then eraseAt s.nodes (nodeKey id)
             else insertAt s.nodes (nodeKey id) n }

/-- The node that executes. -/
def State.cur (s : State) : Node := s.node s.active

/-- Register `r` of a node (R20, R22: no register is special). -/
def Node.reg (n : Node) (r : Reg) : Byte := n.regs[r.toFin]

/-- The node with register `r` written. -/
def Node.setReg (n : Node) (r : Reg) (v : Byte) : Node :=
  { n with regs := n.regs.set r.toNat v r.isLt }

/-! ### Data accesses of one node (R57, R74) -/

/-- Whether an entry index holds program text (R74). -/
def Node.holdsText (n : Node) (entry : Nat) : Bool := (lookup n.imem entry).isSome

/-- Whether an access to this element is refused because its entry holds program text (R74). -/
def textRefused (c : Config) (n : Node) (ea : ElemAddr) : Bool :=
  match c.memUnified with
  | .refuseOverlap => n.holdsText (entryOf ea)
  | .separate => false
  | .unified => false

/-- `MemRead(ea, 1)`. -/
def readElem (c : Config) (n : Node) (ea : ElemAddr) : Except Refusal Byte :=
  if textRefused c n ea then .error .dataAccessToProgramText
  else
    match Memory.read n.dmem ea.toNat with
    | some v => .ok v
    | none => .error (.unwrittenRead (.element ea))

/-- The node after `MemWrite(ea, 1, v)`: the element, and the record that its entry has been written (R74). -/
def Node.putElem (n : Node) (ea : ElemAddr) (v : Byte) : Node :=
  { n with
    dmem := Memory.write n.dmem ea.toNat v
    written := insertNat n.written (entryOf ea) }

/-- `MemWrite(ea, 1, v)`. -/
def writeElem (c : Config) (n : Node) (ea : ElemAddr) (v : Byte) : Except Refusal Node :=
  if textRefused c n ea then .error .dataAccessToProgramText else .ok (n.putElem ea v)

/-- The element a `STORE` leaves (R122): the old element is read only if some of its bits are kept. -/
def storedByte (c : Config) (n : Node) (ea : ElemAddr) (mask v : Byte) : Except Refusal Byte :=
  let m := updateMask c.maskPolarity mask
  if m = 0xFF#8 then .ok v
  else
    match readElem c n ea with
    | .ok old => .ok (mergeBits m old v)
    | .error r => .error r

/-! ### Fetch (R53, R80) -/

/-- The 32-bit entry `e` of the data memory: element `4e + k` is bits `[8k+7:8k]` (R51); `none` if an element has no value. -/
def entryWord (m : List Host.Cell) (e : Nat) : Option Word :=
  match Memory.read m (4 * e), Memory.read m (4 * e + 1), Memory.read m (4 * e + 2),
    Memory.read m (4 * e + 3) with
  | some b0, some b1, some b2, some b3 =>
    some (place b3 24 ||| place b2 16 ||| place b1 8 ||| place b0 0)
  | _, _, _, _ => none

/-- `Fetch(pc)`: from the instruction store, or under `MEM_UNIFIED = unified` from the data memory (R36, R74). -/
def fetch (c : Config) (n : Node) : Except Refusal Word :=
  match c.memUnified with
  | .unified =>
    if n.written.contains n.pc.toNat then .error .fetchOfWrittenEntry
    else
      match entryWord n.dmem n.pc.toNat with
      | some w => .ok w
      | none => .error (.unwrittenRead (.instruction n.pc))
  | .separate | .refuseOverlap =>
    match lookup n.imem n.pc.toNat with
    | some w => .ok w
    | none => .error (.unwrittenRead (.instruction n.pc))

/-- `Fetch(pc)` and decode (R102). -/
def fetchInstr (c : Config) (n : Node) : Except Refusal Instr :=
  match fetch c n with
  | .error r => .error r
  | .ok w =>
    match decode c.rsvd w with
    | .instr i => .ok i
    | .reserved u => .error (.reservedNonZero u)

/-- The node with the word `w` placed at its `pc` by the launch, not by a store (R36, R273): where the
setting of `MEM_UNIFIED` fetches from, and with no record of a write there. -/
def Node.placeWord (c : Config) (n : Node) (w : Word) : Node :=
  let e := n.pc.toNat
  match c.memUnified with
  | .unified =>
    { n with
      dmem := Memory.write (Memory.write (Memory.write (Memory.write n.dmem (4 * e)
        (w.extractLsb' 0 8)) (4 * e + 1) (w.extractLsb' 8 8)) (4 * e + 2) (w.extractLsb' 16 8))
        (4 * e + 3) (w.extractLsb' 24 8)
      written := n.written.filter fun k => k != e }
  | .separate | .refuseOverlap => { n with imem := insertAt n.imem e w }

/-! ### Triggers: the one asynchronous event (R233 to R242) -/

/-- A trigger is made pending (R236 with `TRIG_COALESCE`). -/
def Node.pend (c : Config) (n : Node) : Node :=
  { n with
    trigPend := match c.trigCoalesce with
      | .oneBit => 1
      | .count => n.trigPend + 1 }

/-- A pending trigger is consumed (R235, R236). -/
def Node.consume (c : Config) (n : Node) : Node :=
  { n with
    trigPend := match c.trigCoalesce with
      | .oneBit => 0
      | .count => n.trigPend - 1 }

/-- Entry: an idle node acts on a pending trigger (R238). Nothing is saved, so there is no return (R241). -/
def Node.wake (c : Config) (n : Node) : Node :=
  { n.consume c with pc := n.markAddr, idle := false }

/-- Whether the node's `pc` is at a `WAIT` (R242). -/
def atWait (c : Config) (n : Node) : Bool :=
  match fetchInstr c n with
  | .ok (.wait _) => true
  | .ok _ => false
  | .error _ => false

/-- Whether a trigger finds the node running: neither idle nor holding at a `WAIT` (R242). -/
def running (c : Config) (n : Node) : Bool := !n.idle && !atWait c n

/-- The node `n` after a trigger, `busy` saying whether the trigger found it running (R242 with
`TRIG_WHILE_RUNNING`); `keep` is the outcome taken under `either`. -/
def receiveTrigger (c : Config) (busy keep : Bool) (n : Node) : Except Refusal Node :=
  if busy then
    match c.trigWhileRunning with
    | .latch => .ok (n.pend c)
    | .drop => .ok n
    | .either => .ok (if keep then n.pend c else n)
    | .refuse => .error .triggerWhileRunning
  else .ok (n.pend c)

/-! ### How an instruction ends -/

/-- The executing node becomes `n` and `pc` advances (R25, R26). -/
def retire (s : State) (n : Node) : Result :=
  match nextPc s.cfg.pcFallthrough n.pc with
  | some p => .next (s.setNode s.active { n with pc := p })
  | none => .refused .fallOffEnd

/-- The executing node writes register `tgt` and `pc` advances. -/
def writeAndRetire (s : State) (tgt : Reg) (v : Byte) : Result :=
  retire s (s.cur.setReg tgt v)

/-- A taken branch of the node `n` (R141). -/
def branchTaken (s : State) (ctl : BranchCtl) (n : Node) : Result :=
  .next (s.setNode s.active (takenNode s.cfg ctl s.ticks n))

/-- A branch not taken (R141, R142). -/
def branchNotTaken (s : State) (ctl : BranchCtl) : Result :=
  match nextPc s.cfg.pcFallthrough s.cur.pc with
  | none => .refused .fallOffEnd
  | some p =>
    match notTakenDefault s.cfg.offsetNotTaken ctl.offset s.cur.dflt with
    | none => .refused .branchOffsetNotTaken
    | some d => .next (s.setNode s.active { s.cur with pc := p, dflt := d })

/-- The common step of a conditional branch (R141). -/
def branchIf (s : State) (ctl : BranchCtl) (cond : Bool) : Result :=
  if cond then branchTaken s ctl s.cur else branchNotTaken s ctl

/-- Whether a `SEND` must hold because `NET_CAPACITY` messages are in flight (decision D16, R67 d). -/
def State.netFull (s : State) : Bool :=
  match s.cfg.netCapacity with
  | none => false
  | some n => decide (n ≤ s.net.length)

/-- `net_send(m)`. -/
def State.post (s : State) (m : Message) : State := { s with net := s.net ++ [m] }

end Sys2Proof.Machine
end

