-- ==== Sys2Proof/Machine/Arith.lean ====
section
/-! DEFINITION. The four instructions of the `ARITH` format (spec/44_arith.md). -/

namespace Sys2Proof.Machine

/-- `ADD` (R201). -/
def execAdd (tgt a b : Reg) (s : State) : Result :=
  writeAndRetire s tgt (addByte s.cfg.arithOverflow (s.cur.reg a) (s.cur.reg b))

/-- `SUB` (R202): `SRC_A` is the minuend. -/
def execSub (tgt a b : Reg) (s : State) : Result :=
  writeAndRetire s tgt (subByte s.cfg.arithOverflow (s.cur.reg a) (s.cur.reg b))

/-- `ANDR` (R203). -/
def execAndr (tgt a : Reg) (s : State) : Result :=
  writeAndRetire s tgt (andReduce (s.cur.reg a))

/-- `ORR` (R204). -/
def execOrr (tgt a : Reg) (s : State) : Result :=
  writeAndRetire s tgt (orReduce (s.cur.reg a))

end Sys2Proof.Machine
end

