-- ==== Sys2Proof/Machine/Branch.lean ====
section
/-! DEFINITION. The eight instructions of the `BRANCH` format (spec/41_branch.md). -/

namespace Sys2Proof.Machine

/-- `JUMP` (R144). -/
def execJump (ctl : BranchCtl) (s : State) : Result := branchIf s ctl true

/-- `WAIT` (R145): with no trigger pending the node holds and nothing changes; else the trigger is consumed and
the branch is taken. -/
def execWait (ctl : BranchCtl) (s : State) : Result :=
  if s.cur.trigPend = 0 then .next s else branchTaken s ctl (s.cur.consume s.cfg)

/-- `BEQ` (R146). -/
def execBeq (ctl : BranchCtl) (a b : Reg) (s : State) : Result :=
  branchIf s ctl (s.cur.reg a == s.cur.reg b)

/-- `BNE` (R147). -/
def execBne (ctl : BranchCtl) (a b : Reg) (s : State) : Result :=
  branchIf s ctl (s.cur.reg a != s.cur.reg b)

/-- `BGE` (R148). -/
def execBge (ctl : BranchCtl) (a b : Reg) (s : State) : Result :=
  branchIf s ctl (condGe s.cfg.cmpSigned (s.cur.reg a) (s.cur.reg b))

/-- `BLT` (R149). -/
def execBlt (ctl : BranchCtl) (a b : Reg) (s : State) : Result :=
  branchIf s ctl (condLt s.cfg.cmpSigned (s.cur.reg a) (s.cur.reg b))

/-- `BEQZ` (R150). -/
def execBeqz (ctl : BranchCtl) (a : Reg) (s : State) : Result :=
  branchIf s ctl (s.cur.reg a == 0x00#8)

/-- `BNEZ` (R151). -/
def execBnez (ctl : BranchCtl) (a : Reg) (s : State) : Result :=
  branchIf s ctl (s.cur.reg a != 0x00#8)

end Sys2Proof.Machine
end

