-- ==== Sys2Proof/Machine/LoadStore.lean ====
section
/-! DEFINITION. `LOAD` and `STORE` (spec/40_load_store.md). -/

namespace Sys2Proof.Machine

/-- `LOAD` (R121). -/
def execLoad (tgt : Reg) (elem : ElemRef) (s : State) : Result :=
  match readElem s.cfg s.cur (elemAddr elem s.cur.dflt) with
  | .ok v => writeAndRetire s tgt v
  | .error r => .refused r

/-- `STORE` (R122): the read and the write of the element are one step (R60). -/
def execStore (src : Reg) (elem : ElemRef) (mask : Byte) (s : State) : Result :=
  let ea := elemAddr elem s.cur.dflt
  match storedByte s.cfg s.cur ea mask (s.cur.reg src) with
  | .error r => .refused r
  | .ok v =>
    match writeElem s.cfg s.cur ea v with
    | .error r => .refused r
    | .ok n => retire s n

end Sys2Proof.Machine
end

