-- ==== Sys2Proof/Machine/Send.lean ====
section
/-! DEFINITION. `SEND` (spec/42_send.md). -/

namespace Sys2Proof.Machine

/-- The message a `SEND` of the executing node makes (R170, R171). -/
def sendMessage (src : Reg) (dest : NodeId) (elem : ElemRef) (trig : Bool) (s : State) : Message :=
  { target := dest, addr := messageAddr s.cfg.offsetResolve elem s.cur.dflt,
    data := s.cur.reg src, trig := trig, sender := .node s.active }

/-- `SEND` (R170); with a finite `NET_CAPACITY` that is used up it holds (decision D16). -/
def execSend (src : Reg) (dest : NodeId) (elem : ElemRef) (trig : Bool) (s : State) : Result :=
  if dest = s.active then .refused .sendToSelf
  else if !inMesh s.cfg dest then .refused .sendOutsideMesh
  else if s.netFull then .next s
  else retire (s.post (sendMessage src dest elem trig s)) s.cur

end Sys2Proof.Machine
end

