-- ==== Sys2Proof/Machine/Shufl.lean ====
section
/-! DEFINITION. `SHUFL` (spec/45_shufl.md). -/

namespace Sys2Proof.Machine

/-- `SHUFL` (R220). -/
def execShufl (tgt src : Reg) (sel : Selectors) (s : State) : Result :=
  writeAndRetire s tgt (shuflByte sel (s.cur.reg src))

end Sys2Proof.Machine
end

