-- ==== Sys2Proof/Machine/Truth.lean ====
section
/-! DEFINITION. `TRUTH` (spec/43_truth.md). -/

namespace Sys2Proof.Machine

/-- The third operand: `C = SI ? IMM : x[SRC_C]` (R95). -/
def thirdOperand (n : Node) (c : Reg) (si : Bool) (imm : Byte) : Byte :=
  if si then imm else n.reg c

/-- `TRUTH` (R190): all sources are read before the target is written (R205). -/
def execTruth (tgt a b c : Reg) (si : Bool) (imm table : Byte) (s : State) : Result :=
  writeAndRetire s tgt
    (truthByte s.cfg.truthOrder table (s.cur.reg a) (s.cur.reg b) (thirdOperand s.cur c si imm))

end Sys2Proof.Machine
end

