-- ==== Sys2Proof/Machine/Dispatch.lean ====
section
/-! DEFINITION. One arm per instruction: what the executing node does with it. -/

namespace Sys2Proof.Machine

def exec (i : Instr) (s : State) : Host.Outcome State Fault Refusal :=
  match i with
  | .load tgt elem => Sys2Proof.Machine.execLoad tgt elem s
  | .store src elem mask => Sys2Proof.Machine.execStore src elem mask s
  | .jump ctl => Sys2Proof.Machine.execJump ctl s
  | .wait ctl => Sys2Proof.Machine.execWait ctl s
  | .beq ctl a b => Sys2Proof.Machine.execBeq ctl a b s
  | .bne ctl a b => Sys2Proof.Machine.execBne ctl a b s
  | .bge ctl a b => Sys2Proof.Machine.execBge ctl a b s
  | .blt ctl a b => Sys2Proof.Machine.execBlt ctl a b s
  | .beqz ctl a => Sys2Proof.Machine.execBeqz ctl a s
  | .bnez ctl a => Sys2Proof.Machine.execBnez ctl a s
  | .send src dest elem trig => Sys2Proof.Machine.execSend src dest elem trig s
  | .truth tgt a b c si imm table => Sys2Proof.Machine.execTruth tgt a b c si imm table s
  | .add tgt a b => Sys2Proof.Machine.execAdd tgt a b s
  | .sub tgt a b => Sys2Proof.Machine.execSub tgt a b s
  | .andr tgt a => Sys2Proof.Machine.execAndr tgt a s
  | .orr tgt a => Sys2Proof.Machine.execOrr tgt a s
  | .shufl tgt src sel => Sys2Proof.Machine.execShufl tgt src sel s

end Sys2Proof.Machine
end

