-- ==== Sys2Proof/Machine/Network.lean ====
section
/-! DEFINITION. The network agent and the host: delivery of a message in flight (spec/20_memory.md rules R66 to R69) and the one move the host may make (spec/70_reset_and_hazards.md rule R280). -/

namespace Sys2Proof.Machine

/-- Two messages of one sender to one target (R69). -/
def samePair (m m' : Message) : Bool := decide (m.sender = m'.sender) && decide (m.target = m'.target)

/-- Whether `NET_ORDER` lets the message `m` at place `k` be delivered next (R69). -/
def mayDeliver (o : NetOrder) (net : List Message) (k : Nat) (m : Message) : Bool :=
  match o with
  | .any => true
  | .pairFifo => (net.take k).all fun e => !samePair e m

/-- The target node after a delivery (R68): the whole element is written, then a trigger is received, the node
being taken as the delivery finds it (R242). -/
def receive (c : Config) (m : Message) (keep : Bool) (n : Node) : Except Refusal Node :=
  match writeElem c n (m.addr.resolve n.dflt) m.data with
  | .error r => .error r
  | .ok n' => if m.trig then receiveTrigger c (running c n) keep n' else .ok n'

/-- The delivery step of the message `m` (R68), which has left `net`. -/
def deliverTo (s : State) (m : Message) (keep : Bool) : Result :=
  if !inMesh s.cfg m.target then .refused .sendOutsideMesh
  else
    match receive s.cfg m keep (s.node m.target) with
    | .error r => .refused r
    | .ok n => .next (s.setNode m.target n)

/-- The network's move: it delivers the message at place `k`, if there is one and the order lets it. -/
def deliver (s : State) (k : Nat) (keep : Bool) : Result :=
  match s.net[k]? with
  | none => .next s
  | some m =>
    if mayDeliver s.cfg.netOrder s.net k m then
      deliverTo { s with net := s.net.eraseIdx k } m keep
    else .next s

/-- Whether a message has the form `SEND_OFFSET_RESOLVE` gives messages (R171). -/
def hasForm (p : OffsetResolve) (a : MsgAddr) : Bool :=
  match p, a with
  | .sender, .resolved _ => true
  | .sender, .deferred _ => false
  | .target, .resolved _ => false
  | .target, .deferred _ => true

/-- The host's move (R280): it adds a message, as a `SEND` would; without host moves it holds (R279). -/
def inject (s : State) (m : Message) : Result :=
  if !(s.cfg.hostMoves && hasForm s.cfg.offsetResolve m.addr) then .next s
  else if !inMesh s.cfg m.target then .refused .sendOutsideMesh
  else if s.netFull then .next s
  else .next (s.post m)

end Sys2Proof.Machine
end

