-- ==== Sys2Proof/Machine/Moves.lean ====
section
/-! DEFINITION. One move of the interleaving (spec/00_scope.md rule R13): a node's own step, a delivery or a host move. -/

namespace Sys2Proof.Machine

/-- The executing node's own step: an idle node wakes if a trigger is pending and else holds (R238); a node that is
not idle fetches, decodes and executes one instruction. -/
def nodeStep (s : State) : Result :=
  if s.cur.idle then
    if s.cur.trigPend = 0 then .next s else .next (s.setNode s.active (s.cur.wake s.cfg))
  else
    match fetchInstr s.cfg s.cur with
    | .ok i => exec i s
    | .error r => .refused r

/-- The move `m`; coordinates with no node make none. -/
def runMove (s : State) (m : Move) : Result :=
  match m with
  | .node id => if inMesh s.cfg id then nodeStep { s with active := id } else .next s
  | .deliver k keep => deliver s k keep
  | .inject msg => inject s msg

/-- The state in which the move `m`, taken from the front of the interleaving, is made: it now stands last. -/
def State.turn (s : State) (m : Move) (rest : List Move) : State :=
  { s with sched := rest ++ [m], ticks := s.ticks + 1 }

/-- The machine with the word `w` placed where the executing node fetches next, that node awake and next to move. -/
def State.placeNext (s : State) (w : Word) : State :=
  let t := s.setNode s.active { s.cur.placeWord s.cfg w with idle := false }
  if t.sched.head? = some (.node s.active) then t
  else { t with sched := .node s.active :: t.sched }

end Sys2Proof.Machine
end

