-- ==== Sys2Proof/Safety.lean ====
section
/-! DEFINITION. What claims speak of: the machine's invariant, the end of a run (spec/70_reset_and_hazards.md rule R277), the runs of the machine and their weak fairness (rule R276), and the spec's descriptions of a step as relations between states. -/

namespace Sys2Proof.Machine

/-! ### The invariant -/

/-- A node's data is in canonical form, and `TRIG_PEND` is one bit under `TRIG_COALESCE = one_bit` (R40, R236). -/
def Node.wf (c : Config) (n : Node) : Bool :=
  Memory.wf n.dmem && rising 1024 (n.imem.map Prod.fst) && rising 1024 n.written &&
    (match c.trigCoalesce with
      | .oneBit => decide (n.trigPend ≤ 1)
      | .count => true)

/-- A listed node is one of the mesh, is in canonical form and differs from a node at launch. -/
def listedNodeOk (c : Config) (e : Nat × Node) : Bool :=
  decide (e.1 / 16 < c.meshRows) && decide (e.1 % 16 < c.meshCols) && e.2.wf c &&
    decide (e.2 ≠ Node.launch c)

/-- A message in flight is for a node of the mesh and has the form of the configuration (R170, R171). -/
def messageOk (c : Config) (m : Message) : Bool :=
  inMesh c m.target && hasForm c.offsetResolve m.addr

/-- No more messages are in flight than `NET_CAPACITY` admits (R67 d, decision D16). -/
def withinCapacity (s : State) : Bool :=
  match s.cfg.netCapacity with
  | none => true
  | some n => decide (s.net.length ≤ n)

/-- The invariant of the machine. -/
def State.inv (s : State) : Bool :=
  s.cfg.valid && rising 256 (s.nodes.map Prod.fst) && s.nodes.all (listedNodeOk s.cfg) &&
    s.net.all (messageOk s.cfg) && withinCapacity s

/-! ### The end of a run (R277) -/

/-- Whether a node exists at these coordinates: the mesh is numbered from 0 (R247, decision D31). -/
def NodeExists (c : Config) (id : NodeId) : Prop :=
  id.row.toNat < c.meshRows ∧ id.col.toNat < c.meshCols

/-- Every node is idle with no trigger pending and no message is in flight. -/
def State.Final (s : State) : Prop :=
  (∀ id, NodeExists s.cfg id → (s.node id).idle = true ∧ (s.node id).trigPend = 0) ∧ s.net = []

/-- Whether a node has no step of its own: idle, or at a `WAIT`, with no trigger pending, or at a `SEND` to another
node of the mesh that finds the network full. -/
def nodeHolds (s : State) (id : NodeId) : Bool :=
  if (s.node id).idle then (s.node id).trigPend == 0
  else
    match fetchInstr s.cfg (s.node id) with
    | .ok (.wait _) => (s.node id).trigPend == 0
    | .ok (.send _ dest _ _) => decide (dest ≠ id) && inMesh s.cfg dest && s.netFull
    | .ok _ => false
    | .error _ => false

/-- No node and no delivery has a step (R277). DESIGN CHOICE (notes/assumptions/24): the host is not asked, also when
`HOST` gives it moves; the spec says of a final state alone that it holds for the interval in which the host makes
none (R278). -/
def State.Quiescent (s : State) : Prop :=
  (∀ id, NodeExists s.cfg id → nodeHolds s id = true) ∧ s.net = []

/-- A quiescent state that is not final is a failure of the run (R277); of host moves it says as little as
`State.Quiescent` (notes/assumptions/24). -/
def State.Stuck (s : State) : Prop := s.Quiescent ∧ ¬ s.Final

/-! ### Runs and weak fairness (R276) -/

/-- An endless run: each state is the step of the one before it, with any interleaving still to come (R13: the steps
of different agents interleave in any order). A run that is refused ends and is none. -/
def IsRun (run : Nat → State) : Prop :=
  ∀ n, ∃ moves, step (run n) = .next { run (n + 1) with sched := moves }

/-- The next step of the state is the node's own. -/
def State.NodeMoves (s : State) (id : NodeId) : Prop := s.sched.head? = some (.node id)

/-- Whether `NET_ORDER` lets the message at place `k` be delivered next (R69): under `pair_fifo`, when no earlier
message of the same sender to the same target is in flight. -/
def State.MayPass (s : State) (k : Nat) (m : Message) : Prop :=
  s.cfg.netOrder = .pairFifo →
    ∀ j m', j < k → s.net[j]? = some m' → ¬ (m'.sender = m.sender ∧ m'.target = m.target)

/-- The next step of the state delivers this message. -/
def State.DeliversNext (s : State) (m : Message) : Prop :=
  ∃ k keep, s.sched.head? = some (.deliver k keep) ∧ s.net[k]? = some m ∧ s.MayPass k m

/-- R276, R67 (e): a node that stays enabled eventually steps, and a message in flight is eventually delivered. -/
def WeaklyFair (run : Nat → State) : Prop :=
  (∀ n id, (∀ k, n ≤ k → NodeExists (run k).cfg id ∧ nodeHolds (run k) id = false) →
    ∃ k, n ≤ k ∧ (run k).NodeMoves id) ∧
  (∀ n m, m ∈ (run n).net → ∃ k, n ≤ k ∧ (run k).DeliversNext m)

/-- Every agent has its turn in the interleaving, which a step repeats: each node of the mesh, and the network with the
oldest message. -/
def State.EveryAgentMoves (s : State) : Prop :=
  (∀ id, NodeExists s.cfg id → .node id ∈ s.sched) ∧ ∃ keep, .deliver 0 keep ∈ s.sched

/-- An interleaving in which every agent has its turn: the nodes of the mesh one after another, then the network. -/
def roundRobin (c : Config) (keep : Bool) : List Move :=
  (((List.finRange 256).map fun i : Fin 256 =>
      (⟨BitVec.ofNat 4 (i.val / 16), BitVec.ofNat 4 i.val⟩ : NodeId)).filter
    (inMesh c)).map Move.node ++ [.deliver 0 keep]

/-! ### Words of the claims -/

/-- The executing node has a next index: it is not at 1023, or `pc` wraps there (R26). -/
def State.CanAdvance (s : State) : Prop := s.cur.pc ≠ 1023#10 ∨ s.cfg.pcFallthrough = .wrap

/-- Whether `MEM_UNIFIED` lets the node's element be accessed as data (R74): its entry is `ea / 4` (R50). -/
def State.DataOpen (s : State) (id : NodeId) (ea : ElemAddr) : Prop :=
  s.cfg.memUnified = .refuseOverlap → lookup (s.node id).imem (ea.toNat / 4) = none

/-- Whether the network takes one more message: fewer than `NET_CAPACITY` are in flight (R67 d, decision D16). -/
def State.HasRoom (s : State) : Prop := ∀ n, s.cfg.netCapacity = some n → s.net.length < n

/-- Whether a trigger finds the node running: `IDLE` = 0 and not holding at a `WAIT` (R242). -/
def State.IsRunning (s : State) (id : NodeId) : Prop :=
  (s.node id).idle = false ∧ ¬ ∃ ctl, fetchInstr s.cfg (s.node id) = .ok (.wait ctl)

/-- The element a message names in a target whose `DEFAULT` is `d` at the delivery (R50, R171): the resolved one, or
the one the deferred fields give there. -/
def MsgAddr.Names (a : MsgAddr) (d : Bit) (ea : ElemAddr) : Prop :=
  match a with
  | .resolved x => ea = x
  | .deferred r =>
    ea.toNat = 4 * r.address.toNat + 2 * r.slot.toNat + (subSel r.offset d).toNat

/-- Everything but the nodes and the network is as it was, and so is every node but one. -/
def OnlyNodeChanged (id : NodeId) (s t : State) : Prop :=
  (∀ id', id' ≠ id → t.node id' = s.node id') ∧ t.cfg = s.cfg ∧ t.sched = s.sched ∧
    t.active = s.active ∧ t.ticks = s.ticks

/-- A node's storage is as it was: every data element, every instruction word, the record of entries written. -/
def SameStorage (n n' : Node) : Prop :=
  (∀ a, Memory.read n'.dmem a = Memory.read n.dmem a) ∧ n'.imem = n.imem ∧ n'.written = n.written

/-- Whether a message has the form `SEND_OFFSET_RESOLVE` gives messages (R171). -/
def MsgAddr.Fits (a : MsgAddr) (p : OffsetResolve) : Prop :=
  (p = .sender → ∃ ea, a = .resolved ea) ∧ (p = .target → ∃ r, a = .deferred r)

/-- The node's data memory with `v` in the element `ea`, whose entry is recorded as written (R50, R74). -/
def ElementWritten (ea : ElemAddr) (v : Byte) (n n' : Node) : Prop :=
  Memory.read n'.dmem ea.toNat = some v ∧
  (∀ a, a ≠ ea.toNat → Memory.read n'.dmem a = Memory.read n.dmem a) ∧
  ea.toNat / 4 ∈ n'.written ∧
  (∀ e, e ≠ ea.toNat / 4 → (e ∈ n'.written ↔ e ∈ n.written)) ∧ n'.imem = n.imem

/-- What a taken branch does to the node that executes it (R141, R142), `TRIG_PEND` apart. -/
def TakenBranch (ctl : BranchCtl) (s t : State) : Prop :=
  t.cur.pc = ctl.target ∧
  t.cur.idle = (ctl.idle || s.cur.idle) ∧
  (ctl.mark = false → t.cur.markAddr = s.cur.markAddr) ∧
  (ctl.mark = true → s.cfg.markValue = .target → t.cur.markAddr = ctl.target) ∧
  (ctl.mark = true → s.cfg.markValue = .next → s.CanAdvance → t.cur.markAddr = s.cur.pc + 1#10) ∧
  (ctl.offset = 0b00#2 → t.cur.dflt = s.cur.dflt) ∧
  (ctl.offset = 0b01#2 → t.cur.dflt = ~~~s.cur.dflt) ∧
  (ctl.offset = 0b10#2 → t.cur.dflt = 0#1) ∧
  (ctl.offset = 0b11#2 → t.cur.dflt = 1#1) ∧
  t.cur.regs = s.cur.regs ∧ SameStorage s.cur t.cur ∧ OnlyNodeChanged s.active s t ∧ t.net = s.net

/-- What a conditional branch does when it is not taken, `d` being the `DEFAULT` it leaves (R141, R142). -/
def NotTakenBranch (d : Bit) (s t : State) : Prop :=
  t.cur = { s.cur with pc := s.cur.pc + 1#10, dflt := d } ∧ OnlyNodeChanged s.active s t ∧ t.net = s.net

/-- The next state of an instruction that writes the register `tgt` and nothing else but `pc`. -/
def WritesRegister (tgt : Reg) (v : Byte) (s t : State) : Prop :=
  t.cur.reg tgt = v ∧ (∀ r, r ≠ tgt → t.cur.reg r = s.cur.reg r) ∧ t.cur.pc = s.cur.pc + 1#10 ∧
  t.cur.idle = s.cur.idle ∧ t.cur.dflt = s.cur.dflt ∧ t.cur.markAddr = s.cur.markAddr ∧
  t.cur.trigPend = s.cur.trigPend ∧ SameStorage s.cur t.cur ∧ OnlyNodeChanged s.active s t ∧
  t.net = s.net

/-- The next state of an instruction that leaves `v` in the element `ea` of the executing node. -/
def WritesElement (ea : ElemAddr) (v : Byte) (s t : State) : Prop :=
  ElementWritten ea v s.cur t.cur ∧
  t.cur.regs = s.cur.regs ∧ t.cur.pc = s.cur.pc + 1#10 ∧ t.cur.idle = s.cur.idle ∧
  t.cur.dflt = s.cur.dflt ∧ t.cur.markAddr = s.cur.markAddr ∧ t.cur.trigPend = s.cur.trigPend ∧
  OnlyNodeChanged s.active s t ∧ t.net = s.net

/-- The next state of the delivery of the message `m` at place `k`, which names the element `ea` of its target, the
target's `TRIG_PEND` apart (R68). -/
def Delivers (k : Nat) (m : Message) (ea : ElemAddr) (s t : State) : Prop :=
  t.net = s.net.eraseIdx k ∧ ElementWritten ea m.data (s.node m.target) (t.node m.target) ∧
  (t.node m.target).regs = (s.node m.target).regs ∧ (t.node m.target).pc = (s.node m.target).pc ∧
  (t.node m.target).idle = (s.node m.target).idle ∧
  (t.node m.target).dflt = (s.node m.target).dflt ∧
  (t.node m.target).markAddr = (s.node m.target).markAddr ∧
  (∀ id, id ≠ m.target → t.node id = s.node id) ∧ t.cfg = s.cfg

/-- The fields and the condition of a conditional branch (R146 to R151) in a state. -/
def branchCondition (s : State) : Instr → Option (BranchCtl × Bool)
  | .beq ctl a b => some (ctl, s.cur.reg a == s.cur.reg b)
  | .bne ctl a b => some (ctl, s.cur.reg a != s.cur.reg b)
  | .bge ctl a b => some (ctl, condGe s.cfg.cmpSigned (s.cur.reg a) (s.cur.reg b))
  | .blt ctl a b => some (ctl, condLt s.cfg.cmpSigned (s.cur.reg a) (s.cur.reg b))
  | .beqz ctl a => some (ctl, s.cur.reg a == 0x00#8)
  | .bnez ctl a => some (ctl, s.cur.reg a != 0x00#8)
  | .load _ _ => none
  | .store _ _ _ => none
  | .jump _ => none
  | .wait _ => none
  | .send _ _ _ _ => none
  | .truth _ _ _ _ _ _ _ => none
  | .add _ _ _ => none
  | .sub _ _ _ => none
  | .andr _ _ => none
  | .orr _ _ => none
  | .shufl _ _ _ => none

/-- Whether the instruction is a branch that is taken with these fields (R141): `JUMP`, a `WAIT` that completes, or a
conditional branch whose condition holds. -/
def TakesBranch (ctl : BranchCtl) (i : Instr) (s : State) : Prop :=
  i = .jump ctl ∨ (i = .wait ctl ∧ s.cur.trigPend ≠ 0) ∨ branchCondition s i = some (ctl, true)

/-- The fields of a branch (R84). -/
def branchFields : Instr → Option BranchCtl
  | .jump ctl => some ctl
  | .wait ctl => some ctl
  | .beq ctl _ _ => some ctl
  | .bne ctl _ _ => some ctl
  | .bge ctl _ _ => some ctl
  | .blt ctl _ _ => some ctl
  | .beqz ctl _ => some ctl
  | .bnez ctl _ => some ctl
  | .load _ _ => none
  | .store _ _ _ => none
  | .send _ _ _ _ => none
  | .truth _ _ _ _ _ _ _ => none
  | .add _ _ _ => none
  | .sub _ _ _ => none
  | .andr _ _ => none
  | .orr _ _ => none
  | .shufl _ _ _ => none

/-- The register an instruction writes (R21). -/
def targetRegister : Instr → Option Reg
  | .load tgt _ => some tgt
  | .truth tgt _ _ _ _ _ _ => some tgt
  | .add tgt _ _ => some tgt
  | .sub tgt _ _ => some tgt
  | .andr tgt _ => some tgt
  | .orr tgt _ => some tgt
  | .shufl tgt _ _ => some tgt
  | .store _ _ _ => none
  | .jump _ => none
  | .wait _ => none
  | .beq _ _ _ => none
  | .bne _ _ _ => none
  | .bge _ _ _ => none
  | .blt _ _ _ => none
  | .beqz _ _ => none
  | .bnez _ _ => none
  | .send _ _ _ _ => none

/-! ### Words of the claims about encodings -/

/-- The seven formats (R81). -/
inductive Format where
  | load | store | branch | send | truth | arith | shufl
  deriving DecidableEq, Repr

/-- The format of an instruction (R97). -/
def formatOf : Instr → Format
  | .load _ _ => .load
  | .store _ _ _ => .store
  | .jump _ => .branch
  | .wait _ => .branch
  | .beq _ _ _ => .branch
  | .bne _ _ _ => .branch
  | .bge _ _ _ => .branch
  | .blt _ _ _ => .branch
  | .beqz _ _ => .branch
  | .bnez _ _ => .branch
  | .send _ _ _ _ => .send
  | .truth _ _ _ _ _ _ _ => .truth
  | .add _ _ _ => .arith
  | .sub _ _ _ => .arith
  | .andr _ _ => .arith
  | .orr _ _ => .arith
  | .shufl _ _ _ => .shufl

/-- A field of fixed value: its lowest bit, its width, its value. -/
structure FixedField where
  lo    : Nat
  len   : Nat
  value : Nat
  deriving DecidableEq, Repr

/-- The opcode and the `COMP` or `OP` value of an instruction: the fixed fields of its row of
spec/opcode_table.json (R103). -/
def fixedFields : Instr → List FixedField
  | .load _ _ => [⟨29, 3, 0⟩]
  | .store _ _ _ => [⟨29, 3, 1⟩]
  | .jump _ => [⟨29, 3, 2⟩, ⟨25, 3, 0⟩]
  | .wait _ => [⟨29, 3, 2⟩, ⟨25, 3, 1⟩]
  | .beq _ _ _ => [⟨29, 3, 2⟩, ⟨25, 3, 2⟩]
  | .bne _ _ _ => [⟨29, 3, 2⟩, ⟨25, 3, 3⟩]
  | .bge _ _ _ => [⟨29, 3, 2⟩, ⟨25, 3, 4⟩]
  | .blt _ _ _ => [⟨29, 3, 2⟩, ⟨25, 3, 5⟩]
  | .beqz _ _ => [⟨29, 3, 2⟩, ⟨25, 3, 6⟩]
  | .bnez _ _ => [⟨29, 3, 2⟩, ⟨25, 3, 7⟩]
  | .send _ _ _ _ => [⟨29, 3, 3⟩]
  | .truth _ _ _ _ _ _ _ => [⟨29, 3, 4⟩]
  | .add _ _ _ => [⟨29, 3, 5⟩, ⟨22, 2, 0⟩]
  | .sub _ _ _ => [⟨29, 3, 5⟩, ⟨22, 2, 1⟩]
  | .andr _ _ => [⟨29, 3, 5⟩, ⟨22, 2, 2⟩]
  | .orr _ _ => [⟨29, 3, 5⟩, ⟨22, 2, 3⟩]
  | .shufl _ _ _ => [⟨30, 2, 3⟩]

/-- The word carries the field's value at the field's place. -/
def FixedField.InWord (f : FixedField) (w : Word) : Prop :=
  w.extractLsb' f.lo f.len = BitVec.ofNat f.len f.value

/-- The `RSVD` bits of a format (the masks of rule R98's table). -/
def rsvdMask : Format → Word
  | .load => 0x1F0007C7#32
  | .store => 0x1F000000#32
  | .branch => 0x00000E38#32
  | .send => 0x1E000000#32
  | .truth => 0x00000000#32
  | .arith => 0x1F3FFE00#32
  | .shufl => 0x00000000#32

/-- The ignored bits of an instruction (R99; the masks of spec/opcode_table.json). -/
def ignoredMask : Instr → Word
  | .load _ _ => 0#32
  | .store _ _ _ => 0#32
  | .jump _ => 0x000001C7#32
  | .wait _ => 0x000001C7#32
  | .beq _ _ _ => 0#32
  | .bne _ _ _ => 0#32
  | .bge _ _ _ => 0#32
  | .blt _ _ _ => 0#32
  | .beqz _ _ => 0x000001C0#32
  | .bnez _ _ => 0x000001C0#32
  | .send _ _ _ _ => 0#32
  | .truth _ _ _ _ si _ _ => if si then 0x00000E00#32 else 0x000FF000#32
  | .add _ _ _ => 0#32
  | .sub _ _ _ => 0#32
  | .andr _ _ => 0x000001C0#32
  | .orr _ _ => 0x000001C0#32
  | .shufl _ _ _ => 0#32

end Sys2Proof.Machine
end

