-- ==== Sys2Proof/Certificates/Slice0/Obligations.lean ====
section
/-! DEFINITION. The statements for the provers. Each says which rule or decision of spec/ it formalises; D<n> is a decision of spec/92_eei_decisions.md, the spec's own choice on a point its source leaves open. -/

open Sys2Proof Sys2Proof.Machine

/-! ### Reset -/

/-- The launch values decisions D20 and D1 give (the spec's own; the model's zeros for the registers and `MARK_ADDR`,
notes/assumptions/1 and 2, are no part of the statement). -/
def Obligations.ResetIsTheLaunchState : Prop :=
  (∀ id, (State.reset.node id).pc = 0#10 ∧ (State.reset.node id).idle = false ∧
    (State.reset.node id).dflt = 0#1 ∧ (State.reset.node id).trigPend = 0 ∧
    (∀ a, Memory.read (State.reset.node id).dmem a = none) ∧
    (∀ a, lookup (State.reset.node id).imem a = none)) ∧
  State.reset.net = []

/-- The machine's invariant holds after reset (the mesh of 16 by 16 is the model's choice, notes/assumptions/5). -/
def Obligations.ResetMeetsTheInvariant : Prop := State.reset.inv = true

/-! ### Encoding -/

/-- Words of spec/95_test_vectors.md section 2.1, written there from the format tables R82 to R88. -/
def Obligations.SpecWordsDecode : Prop :=
  decode .refuse 0x00555828#32 = .instr (.load 5 ⟨0x155, 1, 1⟩) ∧
  decode .refuse 0x20EAA52E#32 = .instr (.store 6 ⟨0x2AA, 0, 3⟩ 0xA5) ∧
  decode .refuse 0x51FFF000#32 = .instr (.jump ⟨true, true, 3, 0x3FF⟩) ∧
  decode .refuse 0x46100081#32 = .instr (.bne ⟨false, false, 0, 0x100⟩ 1 2) ∧
  decode .refuse 0x61FFFFCF#32 = .instr (.send 7 ⟨15, 9⟩ ⟨0x3FF, 1, 3⟩ true) ∧
  decode .refuse 0x994006A1#32 = .instr (.truth 4 1 2 3 false 0 0xCA) ∧
  decode .refuse 0xA0400089#32 = .instr (.sub 1 1 2) ∧
  decode .refuse 0xC14E5DC8#32 = .instr (.shufl 1 0 ⟨0, 1, 2, 3, 4, 5, 6, 7⟩)

/-- R81: the major opcode selects the format. -/
def Obligations.MajorOpcodeSelectsFormat : Prop :=
  ∀ w : Word,
    (w.extractLsb' 29 3 = 0b000#3 → formatOf (decodeFields w) = .load) ∧
    (w.extractLsb' 29 3 = 0b001#3 → formatOf (decodeFields w) = .store) ∧
    (w.extractLsb' 29 3 = 0b010#3 → formatOf (decodeFields w) = .branch) ∧
    (w.extractLsb' 29 3 = 0b011#3 → formatOf (decodeFields w) = .send) ∧
    (w.extractLsb' 29 3 = 0b100#3 → formatOf (decodeFields w) = .truth) ∧
    (w.extractLsb' 29 3 = 0b101#3 → formatOf (decodeFields w) = .arith) ∧
    (w.extractLsb' 30 2 = 0b11#2 ↔ formatOf (decodeFields w) = .shufl) ∧
    (w.extractLsb' 29 3 = 0b110#3 →
      ∃ tgt src sel, decodeFields w = .shufl tgt src sel ∧ sel.b7.getLsbD 2 = false) ∧
    (w.extractLsb' 29 3 = 0b111#3 →
      ∃ tgt src sel, decodeFields w = .shufl tgt src sel ∧ sel.b7.getLsbD 2 = true)

/-- R82 to R88: every named field is the bits its format's table gives it, read as numbers: the field of `len` bits from
bit `lo` of `w` is `w / 2^lo mod 2^len`. -/
def Obligations.FormatsPlaceTheirFields : Prop :=
  ∀ w : Word,
    let field := fun lo len => w.toNat / 2 ^ lo % 2 ^ len
    (field 29 3 = 0 → ∃ tgt r, decodeFields w = .load tgt r ∧ r.offset.toNat = field 22 2 ∧
      r.address.toNat = field 12 10 ∧ r.slot.toNat = field 11 1 ∧ tgt.toNat = field 3 3) ∧
    (field 29 3 = 1 → ∃ src r mask, decodeFields w = .store src r mask ∧ r.offset.toNat = field 22 2 ∧
      r.address.toNat = field 12 10 ∧ r.slot.toNat = field 11 1 ∧ mask.toNat = field 3 8 ∧
      src.toNat = field 0 3) ∧
    (field 29 3 = 2 → ∃ ctl, branchFields (decodeFields w) = some ctl ∧ ctl.mark.toNat = field 28 1 ∧
      ctl.idle.toNat = field 24 1 ∧ ctl.offset.toNat = field 22 2 ∧ ctl.target.toNat = field 12 10 ∧
      (field 25 3 = 0 → decodeFields w = .jump ctl) ∧ (field 25 3 = 1 → decodeFields w = .wait ctl) ∧
      (2 ≤ field 25 3 → ∃ a, a.toNat = field 0 3 ∧
        (field 25 3 = 6 → decodeFields w = .beqz ctl a) ∧
        (field 25 3 = 7 → decodeFields w = .bnez ctl a) ∧
        (field 25 3 < 6 → ∃ b, b.toNat = field 6 3 ∧
          (field 25 3 = 2 → decodeFields w = .beq ctl a b) ∧
          (field 25 3 = 3 → decodeFields w = .bne ctl a b) ∧
          (field 25 3 = 4 → decodeFields w = .bge ctl a b) ∧
          (field 25 3 = 5 → decodeFields w = .blt ctl a b)))) ∧
    (field 29 3 = 3 → ∃ src dest r trig, decodeFields w = .send src dest r trig ∧
      trig.toNat = field 24 1 ∧ r.offset.toNat = field 22 2 ∧ r.address.toNat = field 12 10 ∧
      r.slot.toNat = field 11 1 ∧ dest.row.toNat = field 7 4 ∧ dest.col.toNat = field 3 4 ∧
      src.toNat = field 0 3) ∧
    (field 29 3 = 4 → ∃ tgt a b c si imm table, decodeFields w = .truth tgt a b c si imm table ∧
      table.toNat = field 21 8 ∧ si.toNat = field 20 1 ∧ (si = true → imm.toNat = field 12 8) ∧
      (si = false → c.toNat = field 9 3) ∧ b.toNat = field 6 3 ∧ tgt.toNat = field 3 3 ∧
      a.toNat = field 0 3) ∧
    (field 29 3 = 5 → ∃ tgt a b, tgt.toNat = field 3 3 ∧ a.toNat = field 0 3 ∧ b.toNat = field 6 3 ∧
      (field 22 2 = 0 → decodeFields w = .add tgt a b) ∧
      (field 22 2 = 1 → decodeFields w = .sub tgt a b) ∧
      (field 22 2 = 2 → decodeFields w = .andr tgt a) ∧
      (field 22 2 = 3 → decodeFields w = .orr tgt a)) ∧
    (field 30 2 = 3 → ∃ tgt src sel, decodeFields w = .shufl tgt src sel ∧ tgt.toNat = field 3 3 ∧
      src.toNat = field 0 3 ∧ sel.b0.toNat = field 6 3 ∧ sel.b1.toNat = field 9 3 ∧
      sel.b2.toNat = field 12 3 ∧ sel.b3.toNat = field 15 3 ∧ sel.b4.toNat = field 18 3 ∧
      sel.b5.toNat = field 21 3 ∧ sel.b6.toNat = field 24 3 ∧ sel.b7.toNat = field 27 3)

/-- R97, R103 (derived in the spec from the complete table): every word is the instruction whose row's fixed bits it
carries. -/
def Obligations.EveryWordCarriesItsRowsFixedBits : Prop :=
  ∀ w : Word, ∀ f ∈ fixedFields (decodeFields w), f.InWord w

/-- Decoding what the encoder writes gives the instruction back, for every well-formed instruction, with every operand
at every value, under either `RSVD_POLICY` (so the encoder writes no reserved bit). -/
def Obligations.DecodeOfEncode : Prop :=
  ∀ (p : RsvdPolicy) (i : Instr), i.wellFormed = true → decode p (encode i) = .instr i

/-- The other direction: encoding what a word decodes to gives the word with the bits the instruction ignores (R99,
D30) cleared, when no reserved bit is set; and what is decoded is always well-formed. -/
def Obligations.EncodeOfDecodeClearsIgnoredBits : Prop :=
  ∀ w : Word,
    (decodeFields w).wellFormed = true ∧
    (w &&& rsvdMask (formatOf (decodeFields w)) = 0#32 → encode (decodeFields w) = w &&& ~~~ignoredMask (decodeFields w))

/-- R98's masks and D3: under `refuse` exactly the words with a 1 under their format's mask are rejected, by name;
under `ignore` none is, and the reserved bits do not matter. -/
def Obligations.ReservedBitsAreRejectedUnderRefuse : Prop :=
  ∀ w : Word,
    (decode .refuse w = .reserved w ↔ w &&& rsvdMask (formatOf (decodeFields w)) ≠ 0#32) ∧
    (w &&& rsvdMask (formatOf (decodeFields w)) = 0#32 → decode .refuse w = decode .ignore w) ∧
    decode .ignore w = .instr (decodeFields w) ∧
    decodeFields (w &&& ~~~rsvdMask (formatOf (decodeFields w))) = decodeFields w

/-! ### The element address -/

/-- R52: the source's formula and the rule's eight rows. -/
def Obligations.SubSlotSelector : Prop :=
  (∀ (o : BitVec 2) (d : Bit),
    subSel o d = if o[1] = true then BitVec.ofBool o[0] else BitVec.ofBool (o[0] ^^ d[0])) ∧
  subSel 0b00 0 = 0 ∧ subSel 0b00 1 = 1 ∧ subSel 0b01 0 = 1 ∧ subSel 0b01 1 = 0 ∧
  subSel 0b10 0 = 0 ∧ subSel 0b10 1 = 0 ∧ subSel 0b11 0 = 1 ∧ subSel 0b11 1 = 1

/-- R50: the three fields name one element by the 12-bit address `{ADDRESS, SLOT, sub}`. -/
def Obligations.ElementAddressFormula : Prop :=
  ∀ (r : ElemRef) (d : Bit),
    (elemAddr r d).toNat = 4 * r.address.toNat + 2 * r.slot.toNat + (subSel r.offset d).toNat ∧
    (elemAddr r d).extractLsb' 2 10 = r.address ∧ (elemAddr r d).extractLsb' 1 1 = r.slot ∧
    (elemAddr r d).extractLsb' 0 1 = subSel r.offset d

/-- R123: in the modes `2b00` and `2b01` the same fields name one or the other sub-slot as `DEFAULT` says, in the other
two modes the address does not depend on it; and no instruction but a `BRANCH` changes `DEFAULT`. -/
def Obligations.UseOfDefault : Prop :=
  (∀ (r : ElemRef) (d : Bit), r.offset = 0b00#2 ∨ r.offset = 0b01#2 →
    elemAddr r (~~~d) = elemAddr r d ^^^ 1#12) ∧
  (∀ (r : ElemRef) (d d' : Bit), r.offset = 0b10#2 ∨ r.offset = 0b11#2 → elemAddr r d = elemAddr r d') ∧
  (∀ (i : Instr) (s t : State), exec i s = .next t → formatOf i ≠ .branch → t.cur.dflt = s.cur.dflt)

/-! ### LOAD and STORE -/

/-- R121 (with the spec's derived reading that the element is written unchanged, and D1, D2): `LOAD` completes. -/
def Obligations.LoadReadsTheElement : Prop :=
  ∀ (s : State) (tgt : Reg) (r : ElemRef) (v : Byte), s.CanAdvance →
    s.DataOpen s.active (elemAddr r s.cur.dflt) →
    Memory.read s.cur.dmem
      (4 * r.address.toNat + 2 * r.slot.toNat + (subSel r.offset s.cur.dflt).toNat) = some v →
    ∃ t, exec (.load tgt r) s = .next t ∧ WritesRegister tgt v s t

/-- R43, D34: `LOAD` of an element that has no value is refused by name (the model takes the refusal of the two treatments
R43 offers, notes/assumptions/3, and raises it before others that apply, 13). -/
def Obligations.LoadOfElementWithoutValueIsRefused : Prop :=
  ∀ (s : State) (tgt : Reg) (r : ElemRef), s.DataOpen s.active (elemAddr r s.cur.dflt) →
    Memory.read s.cur.dmem (elemAddr r s.cur.dflt).toNat = none →
    exec (.load tgt r) s = .refused (.unwrittenRead (.element (elemAddr r s.cur.dflt)))

/-- R122 with either `STORE_MASK_POLARITY` (D6): bit by bit, the selected bits come from the register and the others
keep their value; the entry counts as written (R74; under every setting, and also when every bit is kept, which is the
model's reading, notes/assumptions/15). -/
def Obligations.StoreUpdatesTheMaskedBits : Prop :=
  ∀ (s : State) (src : Reg) (r : ElemRef) (mask old : Byte), s.CanAdvance →
    s.DataOpen s.active (elemAddr r s.cur.dflt) →
    Memory.read s.cur.dmem (elemAddr r s.cur.dflt).toNat = some old →
    ∃ t new, exec (.store src r mask) s = .next t ∧
      WritesElement (elemAddr r s.cur.dflt) new s t ∧
      ∀ i < 8, new.getLsbD i =
        if mask.getLsbD i = decide (s.cfg.maskPolarity = .oneUpdates) then (s.cur.reg src).getLsbD i
        else old.getLsbD i

/-- R122: a `STORE` that updates all eight bits needs no old value; its entry counts as written (R74,
notes/assumptions/15). -/
def Obligations.StoreOfAllBitsNeedsNoOldValue : Prop :=
  ∀ (s : State) (src : Reg) (r : ElemRef) (mask : Byte), s.CanAdvance →
    s.DataOpen s.active (elemAddr r s.cur.dflt) →
    (∀ i < 8, mask.getLsbD i = decide (s.cfg.maskPolarity = .oneUpdates)) →
    ∃ t, exec (.store src r mask) s = .next t ∧
      WritesElement (elemAddr r s.cur.dflt) (s.cur.reg src) s t

/-- R122, R43, D34: a `STORE` that keeps some bit of an element with no value is refused by name (notes/assumptions/3 and,
where several refusals apply, 13). -/
def Obligations.StoreOverElementWithoutValueIsRefused : Prop :=
  ∀ (s : State) (src : Reg) (r : ElemRef) (mask : Byte),
    s.DataOpen s.active (elemAddr r s.cur.dflt) →
    Memory.read s.cur.dmem (elemAddr r s.cur.dflt).toNat = none →
    (∃ i < 8, mask.getLsbD i ≠ decide (s.cfg.maskPolarity = .oneUpdates)) →
    exec (.store src r mask) s = .refused (.unwrittenRead (.element (elemAddr r s.cur.dflt)))

/-- R74, D1: under `refuse_overlap` a data access to an entry that holds program text is refused by name, for `LOAD`,
for `STORE` and for a delivery (before other refusals that apply: notes/assumptions/13). The entry is the one `ADDRESS` selects (R50). -/
def Obligations.DataAccessToProgramTextIsRefused : Prop :=
  ∀ (s : State) (w : Word), s.cfg.memUnified = .refuseOverlap →
    (∀ (reg : Reg) (r : ElemRef) (mask : Byte),
      lookup s.cur.imem r.address.toNat = some w →
      exec (.load reg r) s = .refused .dataAccessToProgramText ∧
      exec (.store reg r mask) s = .refused .dataAccessToProgramText) ∧
    (∀ (k : Nat) (keep : Bool) (rest : List Move) (m : Message) (ea : ElemAddr),
      s.sched = .deliver k keep :: rest → s.net[k]? = some m →
      s.MayPass k m → NodeExists s.cfg m.target →
      m.addr.Names (s.node m.target).dflt ea →
      lookup (s.node m.target).imem (ea.toNat / 4) = some w →
      step s = .refused .dataAccessToProgramText)

/-! ### BRANCH -/

/-- R144 with R141 and R142 (D8, D35): `JUMP` is always taken, from any index. -/
def Obligations.JumpIsTaken : Prop :=
  ∀ (s : State) (ctl : BranchCtl),
    ∃ t, exec (.jump ctl) s = .next t ∧ TakenBranch ctl s t ∧ t.cur.trigPend = s.cur.trigPend

/-- R92 (C1), R141, R142, R145: what the `OFFSET` field of a `BRANCH` does to `DEFAULT`, on every branch that is taken.
It rests on decisions of the spec: that a pending trigger completes a `WAIT` (D11), whose `OFFSET` acts in that step
(D36), and that what `OFFSET` does on a branch not taken is open (D7; see `OffsetOfBranchNotTaken`). -/
def Obligations.BranchOffsetField : Prop :=
  ∀ (s : State) (i : Instr) (ctl : BranchCtl), TakesBranch ctl i s → ∃ t, exec i s = .next t ∧
    (ctl.offset = 0b00#2 → t.cur.dflt = s.cur.dflt) ∧
    (ctl.offset = 0b01#2 → t.cur.dflt = ~~~s.cur.dflt) ∧
    (ctl.offset = 0b10#2 → t.cur.dflt = 0#1) ∧
    (ctl.offset = 0b11#2 → t.cur.dflt = 1#1)

/-- R145 (D11, D12, D36): with no trigger pending a `WAIT` changes nothing; with one it consumes it and is a taken
branch, under either `TRIG_COALESCE`. That holding is a step which changes nothing is the model's form
(notes/assumptions/7), and so is the number that holds `TRIG_PEND` (18). -/
def Obligations.WaitHoldsOrCompletes : Prop :=
  ∀ (s : State) (ctl : BranchCtl),
    (s.cur.trigPend = 0 → exec (.wait ctl) s = .next s) ∧
    (s.cur.trigPend ≠ 0 → ∃ t, exec (.wait ctl) s = .next t ∧ TakenBranch ctl s t ∧
      (s.cfg.trigCoalesce = .oneBit → t.cur.trigPend = 0) ∧
      (s.cfg.trigCoalesce = .count → t.cur.trigPend + 1 = s.cur.trigPend))

/-- R146, R147: `BEQ` and `BNE`, taken and (with `OFFSET` `2b00`, so that D7 does not matter) not taken. -/
def Obligations.EqualityBranches : Prop :=
  ∀ (s : State) (ctl : BranchCtl) (a b : Reg),
    (s.cur.reg a = s.cur.reg b →
      (∃ t, exec (.beq ctl a b) s = .next t ∧ TakenBranch ctl s t ∧ t.cur.trigPend = s.cur.trigPend) ∧
      (ctl.offset = 0b00#2 → s.CanAdvance →
        ∃ t, exec (.bne ctl a b) s = .next t ∧ NotTakenBranch s.cur.dflt s t)) ∧
    (s.cur.reg a ≠ s.cur.reg b →
      (∃ t, exec (.bne ctl a b) s = .next t ∧ TakenBranch ctl s t ∧ t.cur.trigPend = s.cur.trigPend) ∧
      (ctl.offset = 0b00#2 → s.CanAdvance →
        ∃ t, exec (.beq ctl a b) s = .next t ∧ NotTakenBranch s.cur.dflt s t))

/-- R148, R149: `BGE` and `BLT` under either `CMP_SIGNED` (D26): `ge` says how the two bytes compare as the numbers
that setting reads them as. Each is taken exactly when the other is not. -/
def Obligations.OrderBranches : Prop :=
  ∀ (s : State) (ctl : BranchCtl) (a b : Reg) (ge : Prop),
    (s.cfg.cmpSigned = .unsigned → (ge ↔ (s.cur.reg b).toNat ≤ (s.cur.reg a).toNat)) →
    (s.cfg.cmpSigned = .signed → (ge ↔ (s.cur.reg b).toInt ≤ (s.cur.reg a).toInt)) →
    (ge →
      (∃ t, exec (.bge ctl a b) s = .next t ∧ TakenBranch ctl s t ∧ t.cur.trigPend = s.cur.trigPend) ∧
      (ctl.offset = 0b00#2 → s.CanAdvance →
        ∃ t, exec (.blt ctl a b) s = .next t ∧ NotTakenBranch s.cur.dflt s t)) ∧
    (¬ ge →
      (∃ t, exec (.blt ctl a b) s = .next t ∧ TakenBranch ctl s t ∧ t.cur.trigPend = s.cur.trigPend) ∧
      (ctl.offset = 0b00#2 → s.CanAdvance →
        ∃ t, exec (.bge ctl a b) s = .next t ∧ NotTakenBranch s.cur.dflt s t))

/-- D26, R148: the two settings of `CMP_SIGNED` differ exactly when bit 7 of the operands differs. -/
def Obligations.SignednessMattersOnlyAcrossBit7 : Prop :=
  ∀ a b : Byte, (condGe .unsigned a b = condGe .signed a b ↔ a.getLsbD 7 = b.getLsbD 7) ∧
    ∀ p, condLt p a b = !condGe p a b

/-- R150, R151: `BEQZ` and `BNEZ`. -/
def Obligations.ZeroBranches : Prop :=
  ∀ (s : State) (ctl : BranchCtl) (a : Reg),
    (s.cur.reg a = 0x00#8 →
      (∃ t, exec (.beqz ctl a) s = .next t ∧ TakenBranch ctl s t ∧ t.cur.trigPend = s.cur.trigPend) ∧
      (ctl.offset = 0b00#2 → s.CanAdvance →
        ∃ t, exec (.bnez ctl a) s = .next t ∧ NotTakenBranch s.cur.dflt s t)) ∧
    (s.cur.reg a ≠ 0x00#8 →
      (∃ t, exec (.bnez ctl a) s = .next t ∧ TakenBranch ctl s t ∧ t.cur.trigPend = s.cur.trigPend) ∧
      (ctl.offset = 0b00#2 → s.CanAdvance →
        ∃ t, exec (.beqz ctl a) s = .next t ∧ NotTakenBranch s.cur.dflt s t))

/-- R142, D7: a conditional branch that is not taken, with `OFFSET` other than `2b00`, under each setting of
`BRANCH_OFFSET_NOT_TAKEN`. -/
def Obligations.OffsetOfBranchNotTaken : Prop :=
  ∀ (s : State) (i : Instr) (ctl : BranchCtl), branchCondition s i = some (ctl, false) →
    s.CanAdvance → ctl.offset ≠ 0b00#2 →
    (s.cfg.offsetNotTaken = .refuse → exec i s = .refused .branchOffsetNotTaken) ∧
    (s.cfg.offsetNotTaken = .apply →
      ∃ t, exec i s = .next t ∧ NotTakenBranch (subSel ctl.offset s.cur.dflt) s t) ∧
    (s.cfg.offsetNotTaken = .skip → ∃ t, exec i s = .next t ∧ NotTakenBranch s.cur.dflt s t)

/-! ### SEND -/

/-- R170 (D13, D15, D16): `SEND` adds one message, and of its own node only `pc` changes. -/
def Obligations.SendAddsOneMessage : Prop :=
  ∀ (s : State) (src : Reg) (dest : NodeId) (r : ElemRef) (trig : Bool), s.CanAdvance →
    dest ≠ s.active → NodeExists s.cfg dest → s.HasRoom →
    ∃ t m, exec (.send src dest r trig) s = .next t ∧ t.net = s.net ++ [m] ∧
      m.target = dest ∧ m.data = s.cur.reg src ∧ m.trig = trig ∧ m.sender = .node s.active ∧
      (s.cfg.offsetResolve = .sender → m.addr = .resolved (elemAddr r s.cur.dflt)) ∧
      (s.cfg.offsetResolve = .target → m.addr = .deferred r) ∧
      t.cur = { s.cur with pc := s.cur.pc + 1#10 } ∧ OnlyNodeChanged s.active s t

/-- R170, D15, D16: to the sender itself and outside the mesh a `SEND` is refused by name; with `NET_CAPACITY`
messages in flight it holds (a step that changes nothing: the model's form, notes/assumptions/7; where several
refusals apply, 13). -/
def Obligations.SendRefusesOrHolds : Prop :=
  ∀ (s : State) (src : Reg) (dest : NodeId) (r : ElemRef) (trig : Bool),
    (dest = s.active → exec (.send src dest r trig) s = .refused .sendToSelf) ∧
    (dest ≠ s.active → ¬ NodeExists s.cfg dest →
      exec (.send src dest r trig) s = .refused .sendOutsideMesh) ∧
    (dest ≠ s.active → NodeExists s.cfg dest → ¬ s.HasRoom →
      exec (.send src dest r trig) s = .next s)

/-! ### TRUTH, ARITH, SHUFL -/

/-- R190 under each of the six `TRUTH_ORDER` settings (D28): the order's first name is index bit 2, its last bit 0. -/
def Obligations.TruthLooksUpEachBit : Prop :=
  ∀ (s : State) (tgt a b c : Reg) (si : Bool) (imm table : Byte), s.CanAdvance →
    ∃ t r, exec (.truth tgt a b c si imm table) s = .next t ∧ WritesRegister tgt r s t ∧
      ∀ i < 8,
        let A := ((s.cur.reg a).getLsbD i).toNat
        let B := ((s.cur.reg b).getLsbD i).toNat
        let C := ((if si then imm else s.cur.reg c).getLsbD i).toNat
        (s.cfg.truthOrder = .abc → r.getLsbD i = table.getLsbD (4 * A + 2 * B + C)) ∧
        (s.cfg.truthOrder = .acb → r.getLsbD i = table.getLsbD (4 * A + 2 * C + B)) ∧
        (s.cfg.truthOrder = .bac → r.getLsbD i = table.getLsbD (4 * B + 2 * A + C)) ∧
        (s.cfg.truthOrder = .bca → r.getLsbD i = table.getLsbD (4 * B + 2 * C + A)) ∧
        (s.cfg.truthOrder = .cab → r.getLsbD i = table.getLsbD (4 * C + 2 * A + B)) ∧
        (s.cfg.truthOrder = .cba → r.getLsbD i = table.getLsbD (4 * C + 2 * B + A))

/-- R191 (derived in the spec from R190): a table that depends only on how many of its inputs are 1 gives one result
under all six orders, and `TRUTH` completes under each. -/
def Obligations.SymmetricTablesIgnoreTheOrder : Prop :=
  ∀ (s : State) (tgt a b c : Reg) (si : Bool) (imm table : Byte), s.CanAdvance →
    table.getLsbD 1 = table.getLsbD 2 → table.getLsbD 2 = table.getLsbD 4 →
    table.getLsbD 3 = table.getLsbD 5 → table.getLsbD 5 = table.getLsbD 6 →
    ∃ t r, exec (.truth tgt a b c si imm table) s = .next t ∧ WritesRegister tgt r s t ∧
      ∀ i < 8, r.getLsbD i = table.getLsbD
        (2 ^ (((s.cur.reg a).getLsbD i).toNat + ((s.cur.reg b).getLsbD i).toNat +
          ((if si then imm else s.cur.reg c).getLsbD i).toNat) - 1)

/-- R95: the third operand is `IMM` when `SI` = 1 and the register `SRC_C` when `SI` = 0, and the other field is
ignored. `truthByte` is the model's lookup, whose index order `TRUTH_ORDER` is open. -/
def Obligations.TruthThirdInput : Prop :=
  ∀ (s : State) (tgt a b c : Reg) (imm table : Byte), s.CanAdvance →
    (∃ t, exec (.truth tgt a b c true imm table) s = .next t ∧
      t.cur.reg tgt = truthByte s.cfg.truthOrder table (s.cur.reg a) (s.cur.reg b) imm) ∧
    (∃ t, exec (.truth tgt a b c false imm table) s = .next t ∧
      t.cur.reg tgt = truthByte s.cfg.truthOrder table (s.cur.reg a) (s.cur.reg b) (s.cur.reg c)) ∧
    (∀ c', exec (.truth tgt a b c' true imm table) s = exec (.truth tgt a b c true imm table) s) ∧
    (∀ imm', exec (.truth tgt a b c false imm' table) s = exec (.truth tgt a b c false imm table) s)

/-- R201 under either `ARITH_OVERFLOW` (D27). -/
def Obligations.AddWrapsOrSaturates : Prop :=
  ∀ (s : State) (tgt a b : Reg), s.CanAdvance →
    ∃ t r, exec (.add tgt a b) s = .next t ∧ WritesRegister tgt r s t ∧
      (s.cfg.arithOverflow = .wrap →
        r.toNat = ((s.cur.reg a).toNat + (s.cur.reg b).toNat) % 256) ∧
      (s.cfg.arithOverflow = .saturate →
        r.toNat = if (s.cur.reg a).toNat + (s.cur.reg b).toNat ≤ 255
          then (s.cur.reg a).toNat + (s.cur.reg b).toNat else 255)

/-- R202 under either `ARITH_OVERFLOW` (D27); `mod` gives a result in 0..255. -/
def Obligations.SubWrapsOrSaturates : Prop :=
  ∀ (s : State) (tgt a b : Reg), s.CanAdvance →
    ∃ t r, exec (.sub tgt a b) s = .next t ∧ WritesRegister tgt r s t ∧
      (s.cfg.arithOverflow = .wrap →
        (r.toNat : Int) = (((s.cur.reg a).toNat : Int) - ((s.cur.reg b).toNat : Int)) % 256) ∧
      (s.cfg.arithOverflow = .saturate →
        r.toNat = if (s.cur.reg b).toNat ≤ (s.cur.reg a).toNat
          then (s.cur.reg a).toNat - (s.cur.reg b).toNat else 0)

/-- R206 (derived in the spec): under `wrap`, `SUB Rt, Ra, Rb` followed by `ADD Rt, Rt, Rb` restores `x[a]`, for `Rb`
other than `Rt`. -/
def Obligations.AddAfterSubRestores : Prop :=
  ∀ (s : State) (tgt a b : Reg), s.cfg.arithOverflow = .wrap → b ≠ tgt → s.CanAdvance →
    ∃ t, exec (.sub tgt a b) s = .next t ∧
      (t.CanAdvance → ∃ u, exec (.add tgt tgt b) t = .next u ∧ u.cur.reg tgt = s.cur.reg a)

/-- R203: the AND reduction. -/
def Obligations.AndReduction : Prop :=
  ∀ (s : State) (tgt a : Reg), s.CanAdvance →
    ∃ t r, exec (.andr tgt a) s = .next t ∧ WritesRegister tgt r s t ∧
      ((∀ i < 8, (s.cur.reg a).getLsbD i = true) → r = 0xFF#8) ∧
      ((∃ i < 8, (s.cur.reg a).getLsbD i = false) → r = 0x00#8)

/-- R204: the OR reduction. -/
def Obligations.OrReduction : Prop :=
  ∀ (s : State) (tgt a : Reg), s.CanAdvance →
    ∃ t r, exec (.orr tgt a) s = .next t ∧ WritesRegister tgt r s t ∧
      ((∃ i < 8, (s.cur.reg a).getLsbD i = true) → r = 0xFF#8) ∧
      ((∀ i < 8, (s.cur.reg a).getLsbD i = false) → r = 0x00#8)

/-- R220 (D29): each target bit is the source bit its selector names. -/
def Obligations.ShuffleGathersBits : Prop :=
  ∀ (s : State) (tgt src : Reg) (sel : Selectors), s.CanAdvance →
    ∃ t r, exec (.shufl tgt src sel) s = .next t ∧ WritesRegister tgt r s t ∧
      r.getLsbD 7 = (s.cur.reg src).getLsbD sel.b7.toNat ∧
      r.getLsbD 6 = (s.cur.reg src).getLsbD sel.b6.toNat ∧
      r.getLsbD 5 = (s.cur.reg src).getLsbD sel.b5.toNat ∧
      r.getLsbD 4 = (s.cur.reg src).getLsbD sel.b4.toNat ∧
      r.getLsbD 3 = (s.cur.reg src).getLsbD sel.b3.toNat ∧
      r.getLsbD 2 = (s.cur.reg src).getLsbD sel.b2.toNat ∧
      r.getLsbD 1 = (s.cur.reg src).getLsbD sel.b1.toNat ∧
      r.getLsbD 0 = (s.cur.reg src).getLsbD sel.b0.toNat

/-! ### The end of the instruction store -/

/-- R26, D2: at index 1023 under `refuse`, an instruction that would advance is refused by name; under `wrap` it goes
to index 0. Of several refusals that apply the model raises the one stated (notes/assumptions/13). -/
def Obligations.EndOfTheInstructionStore : Prop :=
  ∀ (s : State), s.cur.pc = 1023#10 →
    (s.cfg.pcFallthrough = .refuse →
      (∀ (tgt a b c : Reg) (si : Bool) (imm table : Byte) (sel : Selectors),
        exec (.truth tgt a b c si imm table) s = .refused .fallOffEnd ∧
        exec (.add tgt a b) s = .refused .fallOffEnd ∧
        exec (.sub tgt a b) s = .refused .fallOffEnd ∧
        exec (.andr tgt a) s = .refused .fallOffEnd ∧
        exec (.orr tgt a) s = .refused .fallOffEnd ∧
        exec (.shufl tgt a sel) s = .refused .fallOffEnd) ∧
      (∀ (i : Instr) (ctl : BranchCtl), branchCondition s i = some (ctl, false) →
        exec i s = .refused .fallOffEnd) ∧
      (∀ (tgt : Reg) (r : ElemRef) (v : Byte), s.DataOpen s.active (elemAddr r s.cur.dflt) →
        Memory.read s.cur.dmem (elemAddr r s.cur.dflt).toNat = some v →
        exec (.load tgt r) s = .refused .fallOffEnd) ∧
      (∀ (src : Reg) (r : ElemRef) (mask : Byte), s.DataOpen s.active (elemAddr r s.cur.dflt) →
        (∃ v, Memory.read s.cur.dmem (elemAddr r s.cur.dflt).toNat = some v) ∨
          (∀ i < 8, mask.getLsbD i = decide (s.cfg.maskPolarity = .oneUpdates)) →
        exec (.store src r mask) s = .refused .fallOffEnd) ∧
      (∀ (src : Reg) (dest : NodeId) (r : ElemRef) (trig : Bool), dest ≠ s.active →
        NodeExists s.cfg dest → s.HasRoom →
        exec (.send src dest r trig) s = .refused .fallOffEnd)) ∧
    (s.cfg.pcFallthrough = .wrap → ∀ (i : Instr) (t : State), formatOf i ≠ .branch →
      exec i s = .next t → t = s ∨ t.cur.pc = 0#10)

/-! ### Frames -/

/-- What the instructions that write a register leave unchanged. -/
def Obligations.RegisterInstructionsFrame : Prop :=
  ∀ (i : Instr) (tgt : Reg) (s t : State), targetRegister i = some tgt → exec i s = .next t →
    (∀ r, r ≠ tgt → t.cur.reg r = s.cur.reg r) ∧ t.cur.idle = s.cur.idle ∧
    t.cur.dflt = s.cur.dflt ∧ t.cur.markAddr = s.cur.markAddr ∧ t.cur.trigPend = s.cur.trigPend ∧
    SameStorage s.cur t.cur ∧ OnlyNodeChanged s.active s t ∧ t.net = s.net

/-- What `STORE` leaves unchanged: every element but the one at the address it computes. -/
def Obligations.StoreFrame : Prop :=
  ∀ (src : Reg) (r : ElemRef) (mask : Byte) (s t : State), exec (.store src r mask) s = .next t →
    (∀ a, a ≠ (elemAddr r s.cur.dflt).toNat →
      Memory.read t.cur.dmem a = Memory.read s.cur.dmem a) ∧
    (∀ e, e ≠ r.address.toNat → (e ∈ t.cur.written ↔ e ∈ s.cur.written)) ∧
    t.cur.regs = s.cur.regs ∧ t.cur.idle = s.cur.idle ∧ t.cur.dflt = s.cur.dflt ∧
    t.cur.markAddr = s.cur.markAddr ∧ t.cur.trigPend = s.cur.trigPend ∧
    t.cur.imem = s.cur.imem ∧ OnlyNodeChanged s.active s t ∧ t.net = s.net

/-- What the eight branches leave unchanged. -/
def Obligations.BranchFrame : Prop :=
  ∀ (i : Instr) (s t : State), formatOf i = .branch → exec i s = .next t →
    t.cur.regs = s.cur.regs ∧ SameStorage s.cur t.cur ∧ OnlyNodeChanged s.active s t ∧
    t.net = s.net ∧ ((∀ ctl, i ≠ .wait ctl) → t.cur.trigPend = s.cur.trigPend) ∧
    (∀ ctl, branchCondition s i = some (ctl, false) →
      t.cur.idle = s.cur.idle ∧ t.cur.markAddr = s.cur.markAddr)

/-- What `SEND` leaves unchanged: all of its node but `pc`, every message already in flight. -/
def Obligations.SendFrame : Prop :=
  ∀ (src : Reg) (dest : NodeId) (r : ElemRef) (trig : Bool) (s t : State),
    exec (.send src dest r trig) s = .next t →
    t.cur.regs = s.cur.regs ∧ t.cur.idle = s.cur.idle ∧ t.cur.dflt = s.cur.dflt ∧
    t.cur.markAddr = s.cur.markAddr ∧ t.cur.trigPend = s.cur.trigPend ∧
    SameStorage s.cur t.cur ∧ OnlyNodeChanged s.active s t ∧ ∃ sent, t.net = s.net ++ sent

/-- R30, R33: only a `BRANCH` writes `DEFAULT`, `IDLE` or `MARK_ADDR`, and it sets `IDLE` only with its `IDLE` field
and writes `MARK_ADDR` only with its `MARK` field. -/
def Obligations.OnlyBranchWritesControlState : Prop :=
  ∀ (i : Instr) (s t : State), exec i s = .next t →
    (t.cur.dflt ≠ s.cur.dflt ∨ t.cur.idle ≠ s.cur.idle ∨ t.cur.markAddr ≠ s.cur.markAddr →
      formatOf i = .branch) ∧
    (t.cur.idle ≠ s.cur.idle → t.cur.idle = true ∧ (encode i).getLsbD 24 = true) ∧
    (t.cur.markAddr ≠ s.cur.markAddr → (encode i).getLsbD 28 = true)

/-! ### Steps of the machine -/

/-- R13 (a), R80, R102: a step of a node that is not idle runs the instruction its `pc` fetches. Around `exec` the step
only records which node moves, puts the move last in the interleaving and counts the step (the model's form of R13's
interleaving, notes/assumptions/7 and 9). The word fetched is the instruction store's at `pc` unless `MEM_UNIFIED` is
`unified` (R24, R36, D1; for `unified` see `UnifiedFetchReadsTheEntry`), and what a fetch decodes to is what the
word does. -/
def Obligations.StepRunsTheDecodedInstruction : Prop :=
  ∀ (s : State) (id : NodeId) (w : Word) (i : Instr),
    (∀ rest, s.sched = .node id :: rest → NodeExists s.cfg id → (s.node id).idle = false →
      fetch s.cfg (s.node id) = .ok w → decode s.cfg.rsvd w = .instr i →
      step s = exec i { s with sched := rest ++ [.node id], ticks := s.ticks + 1, active := id }) ∧
    (s.cfg.memUnified ≠ .unified → lookup (s.node id).imem (s.node id).pc.toNat = some w →
      fetch s.cfg (s.node id) = .ok w) ∧
    (fetchInstr s.cfg (s.node id) = .ok i ↔
      ∃ u, fetch s.cfg (s.node id) = .ok u ∧ decode s.cfg.rsvd u = .instr i)

/-- R98, R43, R74 (D3, D34, D33): the step of a node that is not idle is refused by name when the word at its `pc` has
a reserved bit set, when there is none, which under `unified` is when an element of the entry has no value
(notes/assumptions/4), and under `unified` when its entry has been written since launch (notes/assumptions/15). -/
def Obligations.FetchRefusals : Prop :=
  ∀ (s : State) (id : NodeId) (rest : List Move), s.sched = .node id :: rest →
    NodeExists s.cfg id → (s.node id).idle = false →
    (∀ w, fetch s.cfg (s.node id) = .ok w → s.cfg.rsvd = .refuse →
      w &&& rsvdMask (formatOf (decodeFields w)) ≠ 0#32 →
      step s = .refused (.reservedNonZero w)) ∧
    (s.cfg.memUnified ≠ .unified → lookup (s.node id).imem (s.node id).pc.toNat = none →
      step s = .refused (.unwrittenRead (.instruction (s.node id).pc))) ∧
    (s.cfg.memUnified = .unified → (s.node id).pc.toNat ∉ (s.node id).written →
      (∃ k < 4, Memory.read (s.node id).dmem (4 * (s.node id).pc.toNat + k) = none) →
      step s = .refused (.unwrittenRead (.instruction (s.node id).pc))) ∧
    (s.cfg.memUnified = .unified → (s.node id).pc.toNat ∈ (s.node id).written →
      step s = .refused .fetchOfWrittenEntry)

/-- R51, R53 (D1, D5): under `unified` the word fetched is the data entry, element `4e+k` at bits `[8k+7:8k]`; it has a
value when its four elements have one (the model's reading, notes/assumptions/4). -/
def Obligations.UnifiedFetchReadsTheEntry : Prop :=
  ∀ (c : Config) (n : Node) (w : Word), c.memUnified = .unified → n.pc.toNat ∉ n.written →
    ((∀ k < 4, Memory.read n.dmem (4 * n.pc.toNat + k) = some (w.extractLsb' (8 * k) 8)) ↔
      fetch c n = .ok w)

/-- R28, R238 (D9, D10): an idle node executes nothing; with a trigger pending it wakes at `MARK_ADDR`, else it holds
(a step that changes nothing: the model's form, notes/assumptions/7). -/
def Obligations.IdleNodeWakesOrHolds : Prop :=
  ∀ (s : State) (id : NodeId) (rest : List Move), s.sched = .node id :: rest →
    NodeExists s.cfg id → (s.node id).idle = true →
    ∃ t, step s = .next t ∧ t.net = s.net ∧ (∀ id', id' ≠ id → t.node id' = s.node id') ∧
      ((s.node id).trigPend = 0 → t.node id = s.node id) ∧
      ((s.node id).trigPend ≠ 0 →
        (t.node id).pc = (s.node id).markAddr ∧ (t.node id).idle = false ∧
        (s.cfg.trigCoalesce = .oneBit → (t.node id).trigPend = 0) ∧
        (s.cfg.trigCoalesce = .count → (t.node id).trigPend + 1 = (s.node id).trigPend) ∧
        (t.node id).regs = (s.node id).regs ∧ (t.node id).dflt = (s.node id).dflt ∧
        (t.node id).markAddr = (s.node id).markAddr ∧ SameStorage (s.node id) (t.node id))

/-- R68, R69, R171 (D13, D14, D17): the delivery of a message without a trigger, in any state of its target, of any
message `NET_ORDER` lets pass. The element is the resolved one, or the one its fields name with the target's `DEFAULT`
at the delivery, and its entry counts as written (R74, notes/assumptions/15). -/
def Obligations.DeliveryWritesTheElement : Prop :=
  ∀ (s : State) (k : Nat) (keep : Bool) (rest : List Move) (m : Message) (ea : ElemAddr),
    s.sched = .deliver k keep :: rest → s.net[k]? = some m → s.MayPass k m →
    NodeExists s.cfg m.target → m.trig = false →
    m.addr.Names (s.node m.target).dflt ea → s.DataOpen m.target ea →
    ∃ t, step s = .next t ∧ Delivers k m ea s t ∧
      (t.node m.target).trigPend = (s.node m.target).trigPend

/-- R68, R69, R236, R242 (D10, D12, D17): the delivery of a message with a trigger, of any message `NET_ORDER` lets
pass, writes the data and, in the same step, makes the trigger pending; on a running node (`IDLE` = 0 and not at a
`WAIT`) as `TRIG_WHILE_RUNNING` says. The model's choices in it: the outcome under `either` is the move's `keep`
(notes/assumptions/12), the entry counts as written under every setting (15), running is judged on the target as the
delivery finds it (16), and `TRIG_PEND` is a number (18). -/
def Obligations.DeliveryOfATrigger : Prop :=
  ∀ (s : State) (k : Nat) (keep : Bool) (rest : List Move) (m : Message) (ea : ElemAddr),
    s.sched = .deliver k keep :: rest → s.net[k]? = some m → s.MayPass k m →
    NodeExists s.cfg m.target → m.trig = true →
    m.addr.Names (s.node m.target).dflt ea → s.DataOpen m.target ea →
    (s.IsRunning m.target → s.cfg.trigWhileRunning = .refuse →
      step s = .refused .triggerWhileRunning) ∧
    (¬ s.IsRunning m.target ∨ s.cfg.trigWhileRunning ≠ .refuse →
      ∃ t, step s = .next t ∧ Delivers k m ea s t ∧
        (s.IsRunning m.target → s.cfg.trigWhileRunning = .drop →
          (t.node m.target).trigPend = (s.node m.target).trigPend) ∧
        (s.IsRunning m.target → s.cfg.trigWhileRunning = .either →
          keep = false → (t.node m.target).trigPend = (s.node m.target).trigPend) ∧
        (¬ s.IsRunning m.target ∨ s.cfg.trigWhileRunning = .latch ∨
            (s.cfg.trigWhileRunning = .either ∧ keep = true) →
          (s.cfg.trigCoalesce = .oneBit → (t.node m.target).trigPend = 1) ∧
          (s.cfg.trigCoalesce = .count →
            (t.node m.target).trigPend = (s.node m.target).trigPend + 1)))

/-- R69 (D17): under `pair_fifo` a message with an earlier one of the same sender and target still in flight is not
delivered. That the move for it is a step which changes nothing is the model's form (notes/assumptions/7 and 11). -/
def Obligations.PairFifoDeliversInOrder : Prop :=
  ∀ (s : State) (j k : Nat) (keep : Bool) (rest : List Move) (m m' : Message),
    s.sched = .deliver k keep :: rest → s.cfg.netOrder = .pairFifo → j < k →
    s.net[j]? = some m' → s.net[k]? = some m → m'.sender = m.sender → m'.target = m.target →
    ∃ t, step s = .next t ∧ t.net = s.net ∧ ∀ id, t.node id = s.node id

/-- R279, R280 (D22): the host's move adds one message, and nothing without host moves. The form a message must have and
the step that changes nothing are the model's (notes/assumptions/7 and 14). -/
def Obligations.HostMoveAddsOneMessage : Prop :=
  ∀ (s : State) (rest : List Move) (m : Message), s.sched = .inject m :: rest →
    (s.cfg.hostMoves = false →
      ∃ t, step s = .next t ∧ t.net = s.net ∧ ∀ id, t.node id = s.node id) ∧
    (s.cfg.hostMoves = true → NodeExists s.cfg m.target →
      m.addr.Fits s.cfg.offsetResolve → s.HasRoom →
      ∃ t, step s = .next t ∧ t.net = s.net ++ [m] ∧ ∀ id, t.node id = s.node id)

/-- R67 (a) to (c), R66 (D16): whatever step is made, the messages in flight are those there were, or one more, or all
but the one delivered: none is lost, doubled or altered. The list's order is the model's (notes/assumptions/11). -/
def Obligations.MessagesAreNeitherLostNorAltered : Prop :=
  ∀ s t : State, step s = .next t →
    t.net = s.net ∨
    (∃ m, t.net = s.net ++ [m] ∧ ((∃ id, s.sched.head? = some (.node id) ∧ m.sender = .node id) ∨
      s.sched.head? = some (.inject m))) ∨
    (∃ k keep, k < s.net.length ∧ s.sched.head? = some (.deliver k keep) ∧
      t.net = s.net.eraseIdx k)

/-- R36, R38, R272, R74 (D1, D33): no step changes a parameter or a word of an instruction store; and a word that can
be fetched before and after a step is the same word, under `unified` too, where it is a data entry and a write ends its
fetch (what counts as a write: notes/assumptions/15). -/
def Obligations.InstructionStoresAndParametersAreConstant : Prop :=
  ∀ s t : State, step s = .next t →
    t.cfg = s.cfg ∧ (∀ id, (t.node id).imem = (s.node id).imem) ∧
    ∀ (id : NodeId) (p : Index) (w w' : Word), fetch s.cfg { s.node id with pc := p } = .ok w →
      fetch t.cfg { t.node id with pc := p } = .ok w' → w' = w

/-- R38 (derived in the spec): a data element of a node changes only by that node's own `STORE` to it or by the
delivery of a message to it. -/
def Obligations.OnlyStoreAndDeliveryWriteDataMemory : Prop :=
  ∀ (s t : State) (id : NodeId) (a : Nat), step s = .next t →
    Memory.read (t.node id).dmem a ≠ Memory.read (s.node id).dmem a →
    (s.sched.head? = some (.node id) ∧ (s.node id).idle = false ∧
      ∃ src r mask, fetchInstr s.cfg (s.node id) = .ok (.store src r mask) ∧
        a = (elemAddr r (s.node id).dflt).toNat) ∨
    (∃ k keep m ea, s.sched.head? = some (.deliver k keep) ∧ s.net[k]? = some m ∧ m.target = id ∧
      m.addr.Names (s.node id).dflt ea ∧ a = ea.toNat)

/-- R38, R247 (the nodes share no state), R68: a node's registers, `pc`, `IDLE`, `DEFAULT` and `MARK_ADDR` change only
in a step of its own. -/
def Obligations.OnlyItsOwnStepChangesANodesCore : Prop :=
  ∀ (s t : State) (id : NodeId), step s = .next t → s.sched.head? ≠ some (.node id) →
    (t.node id).regs = (s.node id).regs ∧ (t.node id).pc = (s.node id).pc ∧
    (t.node id).idle = (s.node id).idle ∧ (t.node id).dflt = (s.node id).dflt ∧
    (t.node id).markAddr = (s.node id).markAddr

/-- R235 (D10): a pending trigger is cleared only by a wake or by a `WAIT` of its node, and one becomes pending only by
the delivery of a message with `TRIG` = 1 to the node (`TRIG_PEND` as a number: notes/assumptions/18). -/
def Obligations.TriggersComeAndGoAsTheSpecSays : Prop :=
  ∀ (s t : State) (id : NodeId), step s = .next t →
    ((t.node id).trigPend < (s.node id).trigPend → s.inv = true →
      s.sched.head? = some (.node id) ∧
      ((s.node id).idle = true ∨ ∃ ctl, fetchInstr s.cfg (s.node id) = .ok (.wait ctl))) ∧
    ((s.node id).trigPend < (t.node id).trigPend →
      ∃ k keep m, s.sched.head? = some (.deliver k keep) ∧ s.net[k]? = some m ∧ m.target = id ∧
        m.trig = true)

/-- R277 (D21), the converse of `NothingMovesInAQuiescentState`: a node of the mesh that does not hold has a step, which
is refused, or changes the node or the network, or is a taken branch to its own index (the endless loop of R144's corner
cases, the one step that changes neither); a message in flight has a step too, since the oldest may always be
delivered; in a final state no step of a node or of the network changes anything; and a node that holds at a `WAIT`
while every other node waits or is idle is stuck. That holding is a step is the model's form (notes/assumptions/7), so
is the list's order (11), and that a stuck state asks nothing of the host is its choice (24). -/
def Obligations.AnAgentThatDoesNotHoldHasAStep : Prop :=
  ∀ s : State,
    (∀ id, s.sched.head? = some (.node id) → NodeExists s.cfg id → nodeHolds s id = false →
      (∃ x, step s = .refused x) ∨
      ∃ t, step s = .next t ∧
        (t.node id ≠ s.node id ∨ t.net ≠ s.net ∨
          ∃ i ctl, fetchInstr s.cfg (s.node id) = .ok i ∧ TakesBranch ctl i { s with active := id } ∧
            ctl.target = (s.node id).pc)) ∧
    (∀ keep, s.sched.head? = some (.deliver 0 keep) → s.net ≠ [] →
      (∃ x, step s = .refused x) ∨ ∃ t, step s = .next t ∧ t.net = s.net.tail) ∧
    (s.Final → (∀ m, s.sched.head? ≠ some (.inject m)) →
      ∃ t, step s = .next t ∧ t.net = s.net ∧ ∀ id, t.node id = s.node id) ∧
    (∀ id, NodeExists s.cfg id → (s.node id).idle = false → s.net = [] →
      (∀ id', NodeExists s.cfg id' → (s.node id').trigPend = 0 ∧ ((s.node id').idle = true ∨
        ∃ ctl, fetchInstr s.cfg (s.node id') = .ok (.wait ctl))) → s.Stuck)

/-- R277 (D21): in a quiescent state no move of a node or of the network changes a node or the network; that such a move
is a step at all is the model's form (notes/assumptions/7), and that quiescence asks nothing of the host is its
choice (24). -/
def Obligations.NothingMovesInAQuiescentState : Prop :=
  ∀ s : State, s.Quiescent → (∀ m, s.sched.head? ≠ some (.inject m)) →
    ∃ t, step s = .next t ∧ t.net = s.net ∧ ∀ id, t.node id = s.node id

/-- The invariant (canonical memories and meshes, a legal `TRIG_PEND`, messages that can be delivered, the capacity of
the network) is kept by every step from every state that meets it. The canonical forms are the model's
(notes/assumptions/5, 11 and 18). -/
def Obligations.EveryStepKeepsTheInvariant : Prop :=
  ∀ s t : State, s.inv = true → step s = .next t → t.inv = true

/-- R276, R67 (e) (D32): a run whose interleaving gives every agent its turn is weakly fair, from any state, and in any
weakly fair run a node that is idle with a trigger pending at last wakes at `MARK_ADDR` (R238). That the interleaving is
a list which the steps repeat is the model's form (notes/assumptions/7), and so is weak fairness as a property of a
run (25). -/
def Obligations.RunsInWhichEveryAgentMovesAreWeaklyFair : Prop :=
  ∀ run : Nat → State,
    ((∀ n, step (run n) = .next (run (n + 1))) → (run 0).EveryAgentMoves → WeaklyFair run) ∧
    (IsRun run → WeaklyFair run → ∀ n id, NodeExists (run n).cfg id →
      ((run n).node id).idle = true → ((run n).node id).trigPend ≠ 0 →
      ∃ k, n ≤ k ∧ (run k).NodeMoves id ∧ ((run (k + 1)).node id).idle = false ∧
        ((run (k + 1)).node id).pc = ((run n).node id).markAddr)
end

