-- ==== Sys2Proof/Laws/Encoding.lean ====
section
/-! SUPPORT. Reading a field back from a word built of fields in place. -/

namespace Sys2Proof

@[simp] theorem extract_or (v w : Word) (start len : Nat) :
    (v ||| w).extractLsb' start len = v.extractLsb' start len ||| w.extractLsb' start len := by
  ext i
  simp

/-- A field is read back from its own place. -/
theorem extract_place_same {k : Nat} (f : BitVec k) {lo : Nat} (h : lo + k ≤ 32) :
    (place f lo).extractLsb' lo k = f := by
  ext i hi
  simp only [place, BitVec.getElem_extractLsb', BitVec.getLsbD_shiftLeft, BitVec.getLsbD_setWidth]
  have h1 : lo + i < 32 := by omega
  have h2 : ¬ lo + i < lo := by omega
  have h3 : lo + i - lo = i := by omega
  simp [h1, h3, BitVec.getLsbD_eq_getElem hi]
  omega

/-- A field reads as 0 anywhere else. -/
theorem extract_place_apart {k : Nat} (f : BitVec k) {lo start len : Nat}
    (h : lo + k ≤ start ∨ start + len ≤ lo) : (place f lo).extractLsb' start len = 0#len := by
  ext i hi
  simp only [place, BitVec.getElem_extractLsb', BitVec.getLsbD_shiftLeft, BitVec.getLsbD_setWidth,
    BitVec.getElem_zero]
  rcases h with h | h
  · have : f.getLsbD (start + i - lo) = false := BitVec.getLsbD_of_ge _ _ (by omega)
    simp [this]
  · have : start + i < lo := by omega
    simp [this]

theorem ofBool_eq_one (b : Bool) : (BitVec.ofBool b == 1#1) = b := by
  cases b <;> rfl

end Sys2Proof
end

