-- ==== Sys2Proof/Laws/Lists.lean ====
section
/-! SUPPORT. Keyed lists and data memory: reading after a write, and that every operation keeps the canonical form. -/

namespace Sys2Proof.Machine

/-! ### Reading after a write -/

@[simp] theorem lookup_nil {α : Type} (a : Nat) : lookup ([] : List (Nat × α)) a = none := rfl

@[simp] theorem lookup_insertAt_same {α : Type} (m : List (Nat × α)) (a : Nat) (v : α) :
    lookup (insertAt m a v) a = some v := by
  induction m with
  | nil => simp [insertAt, lookup]
  | cons e rest ih =>
    obtain ⟨k, x⟩ := e
    by_cases h1 : a < k
    · simp [insertAt, h1, lookup]
    · by_cases h2 : a = k
      · simp [insertAt, h2, lookup]
      · simp [insertAt, h1, h2, lookup, ih]

theorem lookup_insertAt_ne {α : Type} (m : List (Nat × α)) {a b : Nat} (h : b ≠ a) (v : α) :
    lookup (insertAt m a v) b = lookup m b := by
  induction m with
  | nil => simp [insertAt, lookup, h]
  | cons e rest ih =>
    obtain ⟨k, x⟩ := e
    by_cases h1 : a < k
    · simp [insertAt, h1, lookup, h]
    · by_cases h2 : a = k
      · subst h2; simp [insertAt, lookup, h]
      · simp [insertAt, h1, h2, lookup, ih]

@[simp] theorem lookup_eraseAt_same {α : Type} (m : List (Nat × α)) (a : Nat) :
    lookup (eraseAt m a) a = none := by
  induction m with
  | nil => rfl
  | cons e rest ih =>
    obtain ⟨k, x⟩ := e
    unfold eraseAt at ih ⊢
    by_cases h : k = a
    · simp [h, ih]
    · simp [h, lookup, ih, Ne.symm h]

theorem lookup_eraseAt_ne {α : Type} (m : List (Nat × α)) {a b : Nat} (h : b ≠ a) :
    lookup (eraseAt m a) b = lookup m b := by
  induction m with
  | nil => rfl
  | cons e rest ih =>
    obtain ⟨k, x⟩ := e
    unfold eraseAt at ih ⊢
    by_cases h1 : k = a
    · simp [h1, lookup, h, ih]
    · simp [h1, lookup, ih]

theorem lookup_mem {α : Type} {m : List (Nat × α)} {a : Nat} {v : α} (h : lookup m a = some v) :
    (a, v) ∈ m := by
  induction m with
  | nil => simp [lookup] at h
  | cons e rest ih =>
    obtain ⟨k, x⟩ := e
    by_cases h1 : a = k
    · simp [lookup, h1] at h; simp [h1, h]
    · simp [lookup, h1] at h; simp [ih h]

/-! ### Membership after a write -/

theorem mem_insertAt {α : Type} {m : List (Nat × α)} {a : Nat} {v : α} {e : Nat × α}
    (h : e ∈ insertAt m a v) : e = (a, v) ∨ e ∈ m := by
  induction m with
  | nil => simpa [insertAt] using h
  | cons f rest ih =>
    obtain ⟨k, x⟩ := f
    by_cases h1 : a < k
    · simpa [insertAt, h1] using h
    · by_cases h2 : a = k
      · simp [insertAt, h2] at h ⊢; tauto
      · simp [insertAt, h1, h2] at h ⊢
        rcases h with h | h
        · simp [h]
        · rcases ih h with h | h <;> simp [h]

theorem mem_eraseAt {α : Type} {m : List (Nat × α)} {a : Nat} {e : Nat × α}
    (h : e ∈ eraseAt m a) : e ∈ m := by
  unfold eraseAt at h
  exact List.mem_of_mem_filter h

theorem mem_insertNat {l : List Nat} {a b : Nat} (h : b ∈ insertNat l a) : b = a ∨ b ∈ l := by
  induction l with
  | nil => simpa [insertNat] using h
  | cons k rest ih =>
    by_cases h1 : a < k
    · simpa [insertNat, h1] using h
    · by_cases h2 : a = k
      · simp [insertNat, h2] at h ⊢; tauto
      · simp [insertNat, h1, h2] at h ⊢
        rcases h with h | h
        · simp [h]
        · rcases ih h with h | h <;> simp [h]

theorem mem_insertNat_iff {l : List Nat} {a b : Nat} : b ∈ insertNat l a ↔ b = a ∨ b ∈ l := by
  refine ⟨mem_insertNat, ?_⟩
  induction l with
  | nil => simp [insertNat]
  | cons k rest ih =>
    by_cases h1 : a < k
    · simp [insertNat, h1]
    · by_cases h2 : a = k
      · subst h2; simp [insertNat]
      · simp only [insertNat, if_neg h1, if_neg h2, List.mem_cons]
        tauto

/-! ### The canonical form is kept -/

theorem rising_cons (b k : Nat) (l : List Nat) :
    rising b (k :: l) = true ↔ k < b ∧ (∀ j ∈ l, k < j) ∧ rising b l = true := by
  simp [rising, and_assoc]

theorem rising_insertAt {α : Type} {b : Nat} {m : List (Nat × α)} {a : Nat} {v : α} (ha : a < b)
    (h : rising b (m.map Prod.fst) = true) : rising b ((insertAt m a v).map Prod.fst) = true := by
  induction m with
  | nil => simp [insertAt, rising, ha]
  | cons e rest ih =>
    obtain ⟨k, x⟩ := e
    obtain ⟨hk, hall, hr⟩ := (rising_cons _ _ _).mp h
    by_cases h1 : a < k
    · simp only [insertAt, if_pos h1, List.map_cons]
      refine (rising_cons _ _ _).mpr ⟨ha, ?_, h⟩
      intro j hj
      rcases List.mem_cons.mp hj with rfl | hj
      · exact h1
      · exact Nat.lt_trans h1 (hall j hj)
    · by_cases h2 : a = k
      · subst h2
        simpa only [insertAt, if_neg h1, if_true, List.map_cons] using h
      · simp only [insertAt, if_neg h1, if_neg h2, List.map_cons]
        refine (rising_cons _ _ _).mpr ⟨hk, ?_, ih hr⟩
        intro j hj
        obtain ⟨e', he', rfl⟩ := List.mem_map.mp hj
        rcases mem_insertAt he' with rfl | he'
        · show k < a; omega
        · exact hall _ (List.mem_map.mpr ⟨e', he', rfl⟩)

theorem rising_filter {b : Nat} {l : List Nat} (p : Nat → Bool) (h : rising b l = true) :
    rising b (l.filter p) = true := by
  induction l with
  | nil => rfl
  | cons k rest ih =>
    obtain ⟨hk, hall, hr⟩ := (rising_cons _ _ _).mp h
    by_cases hp : p k = true
    · rw [List.filter_cons_of_pos hp]
      exact (rising_cons _ _ _).mpr
        ⟨hk, fun j hj => hall j (List.mem_of_mem_filter hj), ih hr⟩
    · rw [List.filter_cons_of_neg hp]
      exact ih hr

theorem rising_eraseAt {α : Type} {b : Nat} {m : List (Nat × α)} {a : Nat}
    (h : rising b (m.map Prod.fst) = true) : rising b ((eraseAt m a).map Prod.fst) = true := by
  have : (eraseAt m a).map Prod.fst = (m.map Prod.fst).filter fun k => k != a := by
    unfold eraseAt
    induction m with
    | nil => rfl
    | cons e rest ih =>
      have hr := ((rising_cons _ _ _).mp h).2.2
      by_cases he : e.1 = a <;> simp [he, ih hr]
  rw [this]
  exact rising_filter _ h

theorem rising_insertNat {b a : Nat} {l : List Nat} (ha : a < b) (h : rising b l = true) :
    rising b (insertNat l a) = true := by
  induction l with
  | nil => simp [insertNat, rising, ha]
  | cons k rest ih =>
    obtain ⟨hk, hall, hr⟩ := (rising_cons _ _ _).mp h
    by_cases h1 : a < k
    · simp only [insertNat, if_pos h1]
      refine (rising_cons _ _ _).mpr ⟨ha, ?_, h⟩
      intro j hj
      rcases List.mem_cons.mp hj with rfl | hj
      · exact h1
      · exact Nat.lt_trans h1 (hall j hj)
    · by_cases h2 : a = k
      · simpa only [insertNat, if_neg h1, if_pos h2] using h
      · simp only [insertNat, if_neg h1, if_neg h2]
        refine (rising_cons _ _ _).mpr ⟨hk, ?_, ih hr⟩
        intro j hj
        rcases mem_insertNat hj with rfl | hj
        · omega
        · exact hall _ hj

/-! ### Data memory -/

@[simp] theorem read_write_same (m : List Host.Cell) (a : Nat) (v : Byte) :
    Memory.read (Memory.write m a v) a = some v := by
  unfold Memory.read Memory.write
  by_cases h : Memory.unlisted = some v
  · rw [if_pos h, lookup_eraseAt_same]; exact h
  · rw [if_neg h, lookup_insertAt_same]

theorem read_write_ne (m : List Host.Cell) {a b : Nat} (h : b ≠ a) (v : Byte) :
    Memory.read (Memory.write m a v) b = Memory.read m b := by
  unfold Memory.read Memory.write
  by_cases hu : Memory.unlisted = some v
  · rw [if_pos hu, lookup_eraseAt_ne m h]
  · rw [if_neg hu, lookup_insertAt_ne m h]

theorem memory_wf_iff (m : List Host.Cell) :
    Memory.wf m = true ↔
      rising 4096 (m.map Prod.fst) = true ∧ ∀ e ∈ m, Memory.unlisted ≠ some e.2 := by
  simp [Memory.wf]

/-- Every write to data memory keeps the canonical form. -/
theorem memory_wf_write {m : List Host.Cell} {a : Nat} (v : Byte) (ha : a < 4096)
    (h : Memory.wf m = true) : Memory.wf (Memory.write m a v) = true := by
  obtain ⟨hr, hu⟩ := (memory_wf_iff m).mp h
  refine (memory_wf_iff _).mpr ?_
  unfold Memory.write
  split
  · exact ⟨rising_eraseAt hr, fun e he => hu e (mem_eraseAt he)⟩
  · rename_i hv
    refine ⟨rising_insertAt ha hr, fun e he => ?_⟩
    rcases mem_insertAt he with rfl | he
    · exact hv
    · exact hu e he

/-- The empty data memory is in canonical form. -/
theorem memory_wf_empty : Memory.wf [] = true := rfl

theorem entryOf_lt (ea : ElemAddr) : entryOf ea < 1024 := by
  have := ea.isLt
  unfold entryOf
  omega

end Sys2Proof.Machine
end

