-- ==== Sys2Proof/Laws/State.lean ====
section
/-! SUPPORT. One lemma per field per update of the state's records, true by unfolding the update once. -/

namespace Sys2Proof.Machine

/-! ### Updates of the machine -/

@[simp] theorem setNode_cfg (s : State) (id : NodeId) (n : Node) : (s.setNode id n).cfg = s.cfg := rfl
@[simp] theorem setNode_net (s : State) (id : NodeId) (n : Node) : (s.setNode id n).net = s.net := rfl
@[simp] theorem setNode_sched (s : State) (id : NodeId) (n : Node) : (s.setNode id n).sched = s.sched := rfl
@[simp] theorem setNode_active (s : State) (id : NodeId) (n : Node) : (s.setNode id n).active = s.active := rfl
@[simp] theorem setNode_ticks (s : State) (id : NodeId) (n : Node) : (s.setNode id n).ticks = s.ticks := rfl

@[simp] theorem post_cfg (s : State) (m : Message) : (s.post m).cfg = s.cfg := rfl
@[simp] theorem post_nodes (s : State) (m : Message) : (s.post m).nodes = s.nodes := rfl
@[simp] theorem post_net (s : State) (m : Message) : (s.post m).net = s.net ++ [m] := rfl
@[simp] theorem post_sched (s : State) (m : Message) : (s.post m).sched = s.sched := rfl
@[simp] theorem post_active (s : State) (m : Message) : (s.post m).active = s.active := rfl
@[simp] theorem post_ticks (s : State) (m : Message) : (s.post m).ticks = s.ticks := rfl

/-! ### Updates of a node -/

@[simp] theorem setReg_pc (n : Node) (r : Reg) (v : Byte) : (n.setReg r v).pc = n.pc := rfl
@[simp] theorem setReg_idle (n : Node) (r : Reg) (v : Byte) : (n.setReg r v).idle = n.idle := rfl
@[simp] theorem setReg_dflt (n : Node) (r : Reg) (v : Byte) : (n.setReg r v).dflt = n.dflt := rfl
@[simp] theorem setReg_markAddr (n : Node) (r : Reg) (v : Byte) : (n.setReg r v).markAddr = n.markAddr := rfl
@[simp] theorem setReg_trigPend (n : Node) (r : Reg) (v : Byte) : (n.setReg r v).trigPend = n.trigPend := rfl
@[simp] theorem setReg_dmem (n : Node) (r : Reg) (v : Byte) : (n.setReg r v).dmem = n.dmem := rfl
@[simp] theorem setReg_imem (n : Node) (r : Reg) (v : Byte) : (n.setReg r v).imem = n.imem := rfl
@[simp] theorem setReg_written (n : Node) (r : Reg) (v : Byte) : (n.setReg r v).written = n.written := rfl

@[simp] theorem putElem_regs (n : Node) (a : ElemAddr) (v : Byte) : (n.putElem a v).regs = n.regs := rfl
@[simp] theorem putElem_pc (n : Node) (a : ElemAddr) (v : Byte) : (n.putElem a v).pc = n.pc := rfl
@[simp] theorem putElem_idle (n : Node) (a : ElemAddr) (v : Byte) : (n.putElem a v).idle = n.idle := rfl
@[simp] theorem putElem_dflt (n : Node) (a : ElemAddr) (v : Byte) : (n.putElem a v).dflt = n.dflt := rfl
@[simp] theorem putElem_markAddr (n : Node) (a : ElemAddr) (v : Byte) : (n.putElem a v).markAddr = n.markAddr := rfl
@[simp] theorem putElem_trigPend (n : Node) (a : ElemAddr) (v : Byte) : (n.putElem a v).trigPend = n.trigPend := rfl
@[simp] theorem putElem_imem (n : Node) (a : ElemAddr) (v : Byte) : (n.putElem a v).imem = n.imem := rfl

@[simp] theorem pend_regs (c : Config) (n : Node) : (n.pend c).regs = n.regs := rfl
@[simp] theorem pend_pc (c : Config) (n : Node) : (n.pend c).pc = n.pc := rfl
@[simp] theorem pend_idle (c : Config) (n : Node) : (n.pend c).idle = n.idle := rfl
@[simp] theorem pend_dflt (c : Config) (n : Node) : (n.pend c).dflt = n.dflt := rfl
@[simp] theorem pend_markAddr (c : Config) (n : Node) : (n.pend c).markAddr = n.markAddr := rfl
@[simp] theorem pend_dmem (c : Config) (n : Node) : (n.pend c).dmem = n.dmem := rfl
@[simp] theorem pend_imem (c : Config) (n : Node) : (n.pend c).imem = n.imem := rfl
@[simp] theorem pend_written (c : Config) (n : Node) : (n.pend c).written = n.written := rfl

@[simp] theorem consume_regs (c : Config) (n : Node) : (n.consume c).regs = n.regs := rfl
@[simp] theorem consume_pc (c : Config) (n : Node) : (n.consume c).pc = n.pc := rfl
@[simp] theorem consume_idle (c : Config) (n : Node) : (n.consume c).idle = n.idle := rfl
@[simp] theorem consume_dflt (c : Config) (n : Node) : (n.consume c).dflt = n.dflt := rfl
@[simp] theorem consume_markAddr (c : Config) (n : Node) : (n.consume c).markAddr = n.markAddr := rfl
@[simp] theorem consume_dmem (c : Config) (n : Node) : (n.consume c).dmem = n.dmem := rfl
@[simp] theorem consume_imem (c : Config) (n : Node) : (n.consume c).imem = n.imem := rfl
@[simp] theorem consume_written (c : Config) (n : Node) : (n.consume c).written = n.written := rfl

@[simp] theorem wake_regs (c : Config) (n : Node) : (n.wake c).regs = n.regs := rfl
@[simp] theorem wake_pc (c : Config) (n : Node) : (n.wake c).pc = n.markAddr := rfl
@[simp] theorem wake_idle (c : Config) (n : Node) : (n.wake c).idle = false := rfl
@[simp] theorem wake_dflt (c : Config) (n : Node) : (n.wake c).dflt = n.dflt := rfl
@[simp] theorem wake_markAddr (c : Config) (n : Node) : (n.wake c).markAddr = n.markAddr := rfl
@[simp] theorem wake_trigPend (c : Config) (n : Node) : (n.wake c).trigPend = (n.consume c).trigPend := rfl
@[simp] theorem wake_dmem (c : Config) (n : Node) : (n.wake c).dmem = n.dmem := rfl
@[simp] theorem wake_imem (c : Config) (n : Node) : (n.wake c).imem = n.imem := rfl
@[simp] theorem wake_written (c : Config) (n : Node) : (n.wake c).written = n.written := rfl

section Taken
variable (c : Config) (ctl : BranchCtl) (k : Nat) (n : Node)

@[simp] theorem takenNode_regs : (takenNode c ctl k n).regs = n.regs := rfl
@[simp] theorem takenNode_pc : (takenNode c ctl k n).pc = ctl.target := rfl
@[simp] theorem takenNode_idle : (takenNode c ctl k n).idle = (ctl.idle || n.idle) := by
  cases h : ctl.idle <;> simp [takenNode, h]
@[simp] theorem takenNode_dflt : (takenNode c ctl k n).dflt = subSel ctl.offset n.dflt := rfl
@[simp] theorem takenNode_markAddr :
    (takenNode c ctl k n).markAddr = if ctl.mark then markFor c ctl n.pc k else n.markAddr := rfl
@[simp] theorem takenNode_trigPend : (takenNode c ctl k n).trigPend = n.trigPend := rfl
@[simp] theorem takenNode_dmem : (takenNode c ctl k n).dmem = n.dmem := rfl
@[simp] theorem takenNode_imem : (takenNode c ctl k n).imem = n.imem := rfl
@[simp] theorem takenNode_written : (takenNode c ctl k n).written = n.written := rfl

end Taken

end Sys2Proof.Machine
end

