-- ==== Sys2Proof/Laws/Nodes.lean ====
section
/-! SUPPORT. Nodes and registers: reading after a write. -/

namespace Sys2Proof.Machine

theorem nodeKey_lt (id : NodeId) : nodeKey id < 256 := by
  have h1 := id.row.isLt
  have h2 := id.col.isLt
  unfold nodeKey
  omega

theorem nodeKey_inj {a b : NodeId} (h : nodeKey a = nodeKey b) : a = b := by
  obtain ⟨ra, ca⟩ := a
  obtain ⟨rb, cb⟩ := b
  simp only [nodeKey] at h
  have h1 := ra.isLt
  have h2 := ca.isLt
  have h3 := rb.isLt
  have h4 := cb.isLt
  have hr : ra = rb := BitVec.eq_of_toNat_eq (by omega)
  have hc : ca = cb := BitVec.eq_of_toNat_eq (by omega)
  rw [hr, hc]

@[simp] theorem node_setNode_same (s : State) (id : NodeId) (n : Node) :
    (s.setNode id n).node id = n := by
  unfold State.node State.setNode
  by_cases h : n = Node.launch s.cfg
  · simp [h]
  · simp [h]

theorem node_setNode_ne (s : State) {id id' : NodeId} (h : id' ≠ id) (n : Node) :
    (s.setNode id n).node id' = s.node id' := by
  have hk : nodeKey id' ≠ nodeKey id := fun e => h (nodeKey_inj e)
  unfold State.node State.setNode
  by_cases hn : n = Node.launch s.cfg
  · simp [hn, lookup_eraseAt_ne _ hk]
  · simp [hn, lookup_insertAt_ne _ hk]

@[simp] theorem cur_setNode_active (s : State) (n : Node) : (s.setNode s.active n).cur = n :=
  node_setNode_same s s.active n

@[simp] theorem node_post (s : State) (m : Message) (id : NodeId) : (s.post m).node id = s.node id :=
  rfl

@[simp] theorem cur_post (s : State) (m : Message) : (s.post m).cur = s.cur := rfl

@[simp] theorem reg_setReg_same (n : Node) (r : Reg) (v : Byte) : (n.setReg r v).reg r = v := by
  simp [Node.reg, Node.setReg]

theorem reg_setReg_ne (n : Node) {r r' : Reg} (h : r' ≠ r) (v : Byte) :
    (n.setReg r v).reg r' = n.reg r' := by
  have : r.toNat ≠ r'.toNat := fun e => h (BitVec.eq_of_toNat_eq e.symm)
  simp [Node.reg, Node.setReg, this]

end Sys2Proof.Machine
end

