-- ==== Sys2Proof/Laws/Ops.lean ====
section
/-! SUPPORT. What each shared operation can do, said once: its answer where it completes, and what a next state tells. -/

namespace Sys2Proof.Machine

/-! ### The successor of the program counter -/

theorem nextPc_eq_some {p : PcFallthrough} {pc q : Index} (h : nextPc p pc = some q) :
    q = pc + 1#10 ∧ (pc ≠ 1023#10 ∨ p = .wrap) := by
  unfold nextPc at h
  by_cases hp : pc = 1023#10
  · subst hp
    cases p <;> simp at h
    exact ⟨h.symm, .inr rfl⟩
  · simp [hp] at h
    exact ⟨h.symm, .inl hp⟩

theorem nextPc_of_canAdvance {s : State} (h : s.CanAdvance) :
    nextPc s.cfg.pcFallthrough s.cur.pc = some (s.cur.pc + 1#10) := by
  unfold nextPc
  by_cases hp : s.cur.pc = 1023#10
  · rcases h with h | h
    · exact absurd hp h
    · simp [hp, h]
  · simp [hp]

theorem nextPc_eq_none {p : PcFallthrough} {pc : Index} :
    nextPc p pc = none ↔ pc = 1023#10 ∧ p = .refuse := by
  unfold nextPc
  by_cases hp : pc = 1023#10 <;> cases p <;> simp [hp]

/-! ### How an instruction ends -/

/-- `retire` answers exactly where there is a next index. -/
theorem retire_next {s t : State} {n : Node} (h : retire s n = .next t) :
    t = s.setNode s.active { n with pc := n.pc + 1#10 } ∧
      (n.pc ≠ 1023#10 ∨ s.cfg.pcFallthrough = .wrap) := by
  unfold retire at h
  split at h
  · rename_i p hp
    obtain ⟨rfl, hc⟩ := nextPc_eq_some hp
    injection h with h
    exact ⟨h.symm, hc⟩
  · cases h

theorem retire_of_canAdvance {s : State} {n : Node} (h : s.CanAdvance) (hn : n.pc = s.cur.pc) :
    retire s n = .next (s.setNode s.active { n with pc := n.pc + 1#10 }) := by
  unfold retire
  rw [hn, nextPc_of_canAdvance h]

theorem retire_fallOff {s : State} {n : Node} (hp : n.pc = 1023#10)
    (hc : s.cfg.pcFallthrough = .refuse) : retire s n = .refused .fallOffEnd := by
  unfold retire
  rw [nextPc_eq_none.mpr ⟨hp, hc⟩]

theorem writeAndRetire_next {s t : State} {tgt : Reg} {v : Byte}
    (h : writeAndRetire s tgt v = .next t) :
    t = s.setNode s.active { s.cur.setReg tgt v with pc := s.cur.pc + 1#10 } ∧ s.CanAdvance := by
  exact retire_next h

theorem onlyNodeChanged_setNode (s : State) (id : NodeId) (n : Node) :
    OnlyNodeChanged id s (s.setNode id n) :=
  ⟨fun _ h => node_setNode_ne s h n, rfl, rfl, rfl, rfl⟩

theorem sameStorage_refl (n : Node) : SameStorage n n := ⟨fun _ => rfl, rfl, rfl⟩

/-- The next state of an instruction that writes one register. -/
theorem writesRegister_setNode (s : State) (tgt : Reg) (v : Byte) :
    WritesRegister tgt v s
      (s.setNode s.active { s.cur.setReg tgt v with pc := s.cur.pc + 1#10 }) := by
  have hreg : ∀ r, Node.reg { s.cur.setReg tgt v with pc := s.cur.pc + 1#10 } r =
      (s.cur.setReg tgt v).reg r := fun _ => rfl
  unfold WritesRegister
  rw [cur_setNode_active]
  exact ⟨(hreg _).trans (reg_setReg_same ..), fun r h => (hreg r).trans (reg_setReg_ne _ h _), rfl,
    rfl, rfl, rfl, rfl, ⟨fun _ => rfl, rfl, rfl⟩, onlyNodeChanged_setNode .., rfl⟩

theorem writeAndRetire_completes {s : State} (h : s.CanAdvance) (tgt : Reg) (v : Byte) :
    ∃ t, writeAndRetire s tgt v = .next t ∧ WritesRegister tgt v s t :=
  ⟨_, retire_of_canAdvance h rfl, writesRegister_setNode s tgt v⟩

/-! ### Branches -/

theorem subSel_cases (o : BitVec 2) (d : Bit) :
    (o = 0b00#2 → subSel o d = d) ∧ (o = 0b01#2 → subSel o d = ~~~d) ∧
      (o = 0b10#2 → subSel o d = 0#1) ∧ (o = 0b11#2 → subSel o d = 1#1) := by
  revert o d
  decide

theorem markFor_target {c : Config} (h : c.markValue = .target) (ctl : BranchCtl) (pc : Index)
    (k : Nat) : markFor c ctl pc k = ctl.target := by
  simp [markFor, h]

theorem markFor_next {s : State} (h : s.cfg.markValue = .next) (hc : s.CanAdvance)
    (ctl : BranchCtl) (k : Nat) : markFor s.cfg ctl s.cur.pc k = s.cur.pc + 1#10 := by
  simp [markFor, h, nextPc_of_canAdvance hc]

/-- A taken branch of a node that differs from the executing one in `TRIG_PEND` alone. -/
theorem branchTaken_completes (s : State) (ctl : BranchCtl) (k : Nat) :
    ∃ t, branchTaken s ctl { s.cur with trigPend := k } = .next t ∧ TakenBranch ctl s t ∧
      t.cur.trigPend = k := by
  obtain ⟨h0, h1, h2, h3⟩ := subSel_cases ctl.offset s.cur.dflt
  refine ⟨_, rfl, ?_, by simp⟩
  unfold TakenBranch
  rw [cur_setNode_active]
  refine ⟨rfl, takenNode_idle .., fun h => by simp [h], fun h hm => by simp [h, markFor_target hm],
    fun h hm hc => by simp [h, markFor_next hm hc], h0, h1, h2, h3, rfl,
    ⟨fun _ => rfl, rfl, rfl⟩, onlyNodeChanged_setNode .., rfl⟩

theorem branchTaken_cur_completes (s : State) (ctl : BranchCtl) :
    ∃ t, branchTaken s ctl s.cur = .next t ∧ TakenBranch ctl s t ∧
      t.cur.trigPend = s.cur.trigPend :=
  branchTaken_completes s ctl s.cur.trigPend

theorem branchNotTaken_next {s t : State} {ctl : BranchCtl} (h : branchNotTaken s ctl = .next t) :
    ∃ d, notTakenDefault s.cfg.offsetNotTaken ctl.offset s.cur.dflt = some d ∧ s.CanAdvance ∧
      t = s.setNode s.active { s.cur with pc := s.cur.pc + 1#10, dflt := d } := by
  unfold branchNotTaken at h
  split at h
  · cases h
  · rename_i p hp
    obtain ⟨rfl, hc⟩ := nextPc_eq_some hp
    split at h
    · cases h
    · rename_i d hd
      injection h with h
      exact ⟨d, hd, hc, h.symm⟩

theorem branchNotTaken_completes {s : State} {ctl : BranchCtl} {d : Bit} (hc : s.CanAdvance)
    (hd : notTakenDefault s.cfg.offsetNotTaken ctl.offset s.cur.dflt = some d) :
    ∃ t, branchNotTaken s ctl = .next t ∧ NotTakenBranch d s t := by
  refine ⟨s.setNode s.active { s.cur with pc := s.cur.pc + 1#10, dflt := d }, ?_, ?_⟩
  · unfold branchNotTaken
    rw [nextPc_of_canAdvance hc]
    simp [hd]
  · exact ⟨by simp, onlyNodeChanged_setNode .., rfl⟩

/-- Whatever branch is made, the next state differs from the state in the executing node alone. -/
theorem branchIf_next {s t : State} {ctl : BranchCtl} {b : Bool} (h : branchIf s ctl b = .next t) :
    (b = true ∧ t = s.setNode s.active (takenNode s.cfg ctl s.ticks s.cur)) ∨
      (b = false ∧ ∃ d, notTakenDefault s.cfg.offsetNotTaken ctl.offset s.cur.dflt = some d ∧
        s.CanAdvance ∧ t = s.setNode s.active { s.cur with pc := s.cur.pc + 1#10, dflt := d }) := by
  cases b with
  | true =>
    refine .inl ⟨rfl, ?_⟩
    simp only [branchIf, branchTaken, if_true] at h
    injection h with h
    exact h.symm
  | false =>
    exact .inr ⟨rfl, branchNotTaken_next (by simpa [branchIf] using h)⟩

/-! ### Data accesses and triggers -/

theorem readElem_ok {c : Config} {n : Node} {ea : ElemAddr} {v : Byte}
    (h : readElem c n ea = .ok v) :
    textRefused c n ea = false ∧ Memory.read n.dmem ea.toNat = some v := by
  unfold readElem at h
  split at h
  · cases h
  · rename_i ht
    split at h
    · rename_i w hw
      injection h with h
      subst h
      exact ⟨by simpa using ht, hw⟩
    · cases h

theorem writeElem_ok {c : Config} {n n' : Node} {ea : ElemAddr} {v : Byte}
    (h : writeElem c n ea v = .ok n') : textRefused c n ea = false ∧ n' = n.putElem ea v := by
  unfold writeElem at h
  split at h
  · cases h
  · rename_i ht
    injection h with h
    exact ⟨by simpa using ht, h.symm⟩

theorem textRefused_of_dataOpen {s : State} {id : NodeId} {ea : ElemAddr} (h : s.DataOpen id ea) :
    textRefused s.cfg (s.node id) ea = false := by
  unfold textRefused Node.holdsText entryOf
  unfold State.DataOpen at h
  cases hm : s.cfg.memUnified <;> simp_all

theorem read_putElem_same (n : Node) (ea : ElemAddr) (v : Byte) :
    Memory.read (n.putElem ea v).dmem ea.toNat = some v := read_write_same ..

theorem read_putElem_ne (n : Node) {ea : ElemAddr} {a : Nat} (h : a ≠ ea.toNat) (v : Byte) :
    Memory.read (n.putElem ea v).dmem a = Memory.read n.dmem a := read_write_ne _ h v

/-- What a write of one element leaves, said once. -/
theorem elementWritten_putElem (n : Node) (ea : ElemAddr) (v : Byte) :
    ElementWritten ea v n (n.putElem ea v) :=
  ⟨read_putElem_same .., fun _ h => read_putElem_ne n h v, mem_insertNat_iff.mpr (.inl rfl),
    fun _ h => mem_insertNat_iff.trans (or_iff_right h), rfl⟩

/-- The element address as a number (R50). -/
theorem elemAddr_toNat (r : ElemRef) (d : Bit) : (elemAddr r d).toNat =
    4 * r.address.toNat + 2 * r.slot.toNat + (subSel r.offset d).toNat := by
  have h1 := r.slot.isLt
  have h2 := (subSel r.offset d).isLt
  rw [elemAddr, BitVec.toNat_append, BitVec.toNat_append, ← Nat.shiftLeft_add_eq_or_of_lt h1,
    ← Nat.shiftLeft_add_eq_or_of_lt h2, Nat.shiftLeft_eq, Nat.shiftLeft_eq]
  omega

/-- The entry of an element is the one `ADDRESS` selects (R50). -/
theorem entryOf_elemAddr (r : ElemRef) (d : Bit) : entryOf (elemAddr r d) = r.address.toNat := by
  have h1 := r.slot.isLt
  have h2 := (subSel r.offset d).isLt
  rw [entryOf, elemAddr_toNat]
  omega

/-- The element a message names is the one the delivery writes. -/
theorem names_iff {a : MsgAddr} {d : Bit} {ea : ElemAddr} : a.Names d ea ↔ a.resolve d = ea := by
  cases a with
  | resolved x => exact eq_comm
  | deferred r =>
    simp only [MsgAddr.Names, MsgAddr.resolve, ← elemAddr_toNat]
    exact ⟨fun h => BitVec.eq_of_toNat_eq h.symm, fun h => h ▸ rfl⟩

theorem inMesh_iff {c : Config} {id : NodeId} : inMesh c id = true ↔ NodeExists c id := by
  simp [inMesh, NodeExists]

theorem netFull_iff {s : State} : s.netFull = false ↔ s.HasRoom := by
  unfold State.netFull State.HasRoom
  cases s.cfg.netCapacity <;> simp

theorem hasForm_iff {p : OffsetResolve} {a : MsgAddr} : hasForm p a = true ↔ a.Fits p := by
  cases p <;> cases a <;> simp [hasForm, MsgAddr.Fits]

theorem running_iff {s : State} {id : NodeId} :
    running s.cfg (s.node id) = true ↔ s.IsRunning id := by
  unfold running atWait State.IsRunning
  cases fetchInstr s.cfg (s.node id) with
  | error r => simp
  | ok i => cases i <;> simp

theorem mayDeliver_iff {s : State} {k : Nat} {m : Message} :
    mayDeliver s.cfg.netOrder s.net k m = true ↔ s.MayPass k m := by
  unfold mayDeliver State.MayPass
  cases s.cfg.netOrder with
  | any => simp
  | pairFifo =>
    simp only [List.all_eq_true, List.mem_take_iff_getElem, samePair, true_implies]
    constructor
    · intro h j m' hj hm hp
      obtain ⟨hl, he⟩ := List.getElem?_eq_some_iff.mp hm
      simpa [hp.1, hp.2] using h m' ⟨j, by omega, he⟩
    · rintro h m' ⟨j, hj, rfl⟩
      simp only [Bool.not_eq_true', Bool.and_eq_false_iff, decide_eq_false_iff_not]
      exact Decidable.not_and_iff_or_not.mp (h j _ (by omega) (List.getElem?_eq_getElem (by omega)))

/-- A trigger changes a node's `TRIG_PEND` and nothing else. -/
theorem receiveTrigger_ok {c : Config} {busy keep : Bool} {n n' : Node}
    (h : receiveTrigger c busy keep n = .ok n') : n' = n ∨ n' = n.pend c := by
  unfold receiveTrigger at h
  cases busy <;> cases hw : c.trigWhileRunning <;> cases keep <;> simp [hw] at h <;> simp [← h]

/-- A delivery leaves the target node with the message's element written, and perhaps a trigger pending. -/
theorem receive_ok {c : Config} {m : Message} {keep : Bool} {n n' : Node}
    (h : receive c m keep n = .ok n') :
    textRefused c n (m.addr.resolve n.dflt) = false ∧
      (n' = n.putElem (m.addr.resolve n.dflt) m.data ∨
        n' = (n.putElem (m.addr.resolve n.dflt) m.data).pend c) := by
  unfold receive at h
  split at h
  · cases h
  · rename_i n1 h1
    obtain ⟨ht, rfl⟩ := writeElem_ok h1
    refine ⟨ht, ?_⟩
    split at h
    · exact receiveTrigger_ok h
    · injection h with h
      exact .inl h.symm

theorem deliverTo_next {s t : State} {m : Message} {keep : Bool} (h : deliverTo s m keep = .next t) :
    inMesh s.cfg m.target = true ∧
      ∃ n, receive s.cfg m keep (s.node m.target) = .ok n ∧ t = s.setNode m.target n := by
  unfold deliverTo at h
  split at h
  · cases h
  · rename_i hm
    split at h
    · cases h
    · rename_i n hn
      injection h with h
      exact ⟨by simpa using hm, n, hn, h.symm⟩

/-- A delivery move holds, or removes one message and applies it to its target. -/
theorem deliver_next {s t : State} {k : Nat} {keep : Bool} (h : deliver s k keep = .next t) :
    t = s ∨ ∃ m n, s.net[k]? = some m ∧ mayDeliver s.cfg.netOrder s.net k m = true ∧
      inMesh s.cfg m.target = true ∧ receive s.cfg m keep (s.node m.target) = .ok n ∧
      t = State.setNode { s with net := s.net.eraseIdx k } m.target n := by
  unfold deliver at h
  split at h
  · injection h with h
    exact .inl h.symm
  · rename_i m hm
    split at h
    · rename_i hd
      obtain ⟨hin, n, hn, ht⟩ := deliverTo_next h
      exact .inr ⟨m, n, hm, hd, hin, hn, ht⟩
    · injection h with h
      exact .inl h.symm

/-- A host move holds or adds its message. -/
theorem inject_next {s t : State} {m : Message} (h : inject s m = .next t) :
    t = s ∨ (t = s.post m ∧ s.cfg.hostMoves = true ∧ messageOk s.cfg m = true ∧ s.netFull = false) := by
  unfold inject at h
  split at h
  · injection h with h
    exact .inl h.symm
  · rename_i h1
    split at h
    · cases h
    · rename_i h2
      split at h
      · injection h with h
        exact .inl h.symm
      · rename_i h3
        injection h with h
        simp at h1 h2 h3
        exact .inr ⟨h.symm, h1.1, by simp [messageOk, h1.2, h2], h3⟩

/-! ### Bytes bit by bit -/

theorem byteOfBits_bit (f : Nat → Bool) {i : Nat} (hi : i < 8) : (byteOfBits f).getLsbD i = f i := by
  have key : ∀ b7 b6 b5 b4 b3 b2 b1 b0 : Bool, ∀ j : Fin 8,
      (BitVec.ofBool b7 ++ BitVec.ofBool b6 ++ BitVec.ofBool b5 ++ BitVec.ofBool b4 ++
        BitVec.ofBool b3 ++ BitVec.ofBool b2 ++ BitVec.ofBool b1 ++ BitVec.ofBool b0).getLsbD j =
      [b0, b1, b2, b3, b4, b5, b6, b7][j] := by decide
  refine Eq.trans (key (f 7) (f 6) (f 5) (f 4) (f 3) (f 2) (f 1) (f 0) ⟨i, hi⟩) ?_
  interval_cases i <;> rfl

/-- A bit is updated when its `MASK` bit has the value the polarity gives an updated bit. -/
theorem updateMask_bit (p : MaskPolarity) (m : Byte) {i : Nat} (hi : i < 8) :
    (updateMask p m).getLsbD i = decide (m.getLsbD i = decide (p = .oneUpdates)) := by
  have : (~~~m).getLsbD i = !m.getLsbD i := by rw [BitVec.getLsbD_not]; simp [hi]
  cases p <;> simp only [updateMask, this] <;> cases m.getLsbD i <;> rfl

/-- A merged bit comes from the register where it is updated and from the old element elsewhere. -/
theorem mergeBits_bit (m old v : Byte) (i : Nat) (hi : i < 8) :
    (mergeBits m old v).getLsbD i = if m.getLsbD i then v.getLsbD i else old.getLsbD i := by
  simp only [mergeBits, BitVec.getLsbD_or, BitVec.getLsbD_and, BitVec.getLsbD_not, hi]
  cases m.getLsbD i <;> simp

end Sys2Proof.Machine
end

