-- ==== Sys2Proof/Laws/Exec.lean ====
section
/-! SUPPORT. Everything an instruction can do when it answers a next state, said once. -/

namespace Sys2Proof.Machine

/-- The ways `i` goes from `s` to `t`. -/
inductive ExecCases (i : Instr) (s t : State) : Prop where
  | register (tgt : Reg) (v : Byte) (hi : targetRegister i = some tgt) (hc : s.CanAdvance)
      (ht : t = s.setNode s.active { s.cur.setReg tgt v with pc := s.cur.pc + 1#10 })
  | store (src : Reg) (r : ElemRef) (mask v : Byte) (hi : i = .store src r mask) (hc : s.CanAdvance)
      (ht : t = s.setNode s.active
        { s.cur.putElem (elemAddr r s.cur.dflt) v with pc := s.cur.pc + 1#10 })
  | taken (ctl : BranchCtl) (hi : branchFields i = some ctl) (hw : i ≠ .wait ctl)
      (hn : branchCondition s i ≠ some (ctl, false))
      (ht : t = s.setNode s.active (takenNode s.cfg ctl s.ticks s.cur))
  | notTaken (ctl : BranchCtl) (d : Bit) (hi : branchCondition s i = some (ctl, false))
      (hd : notTakenDefault s.cfg.offsetNotTaken ctl.offset s.cur.dflt = some d) (hc : s.CanAdvance)
      (ht : t = s.setNode s.active { s.cur with pc := s.cur.pc + 1#10, dflt := d })
  | waits (ctl : BranchCtl) (hi : i = .wait ctl) (hp : s.cur.trigPend = 0) (ht : t = s)
  | resumes (ctl : BranchCtl) (hi : i = .wait ctl) (hp : s.cur.trigPend ≠ 0)
      (ht : t = s.setNode s.active (takenNode s.cfg ctl s.ticks (s.cur.consume s.cfg)))
  | sendHolds (src : Reg) (dest : NodeId) (r : ElemRef) (trig : Bool) (hi : i = .send src dest r trig)
      (hd : dest ≠ s.active) (hm : inMesh s.cfg dest = true) (hf : s.netFull = true) (ht : t = s)
  | sends (src : Reg) (dest : NodeId) (r : ElemRef) (trig : Bool) (hi : i = .send src dest r trig)
      (hd : dest ≠ s.active) (hm : inMesh s.cfg dest = true) (hf : s.netFull = false)
      (hc : s.CanAdvance)
      (ht : t = (s.post (sendMessage src dest r trig s)).setNode s.active
        { s.cur with pc := s.cur.pc + 1#10 })

theorem register_cases {i : Instr} {s t : State} {tgt : Reg} {v : Byte}
    (hi : targetRegister i = some tgt) (h : writeAndRetire s tgt v = .next t) : ExecCases i s t := by
  obtain ⟨ht, hc⟩ := writeAndRetire_next h
  exact .register tgt v hi hc ht

/-- A conditional branch is the common step with its condition. -/
theorem exec_of_branchCondition {s : State} {i : Instr} {ctl : BranchCtl} {b : Bool}
    (h : branchCondition s i = some (ctl, b)) : exec i s = branchIf s ctl b := by
  cases i <;> simp [branchCondition] at h <;> obtain ⟨rfl, rfl⟩ := h <;> rfl

theorem branchFields_of_condition {s : State} {i : Instr} {ctl : BranchCtl} {b : Bool}
    (h : branchCondition s i = some (ctl, b)) : branchFields i = some ctl ∧ ∀ c, i ≠ .wait c := by
  cases i <;> simp [branchCondition] at h <;> simp [branchFields, h]

theorem branch_cases {i : Instr} {s t : State} {ctl : BranchCtl} {b : Bool}
    (hi : branchCondition s i = some (ctl, b)) (h : exec i s = .next t) : ExecCases i s t := by
  obtain ⟨hf, hw⟩ := branchFields_of_condition hi
  rcases branchIf_next ((exec_of_branchCondition hi) ▸ h) with ⟨rfl, ht⟩ | ⟨rfl, d, hd, hc, ht⟩
  · exact .taken ctl hf (hw ctl) (by simp [hi]) ht
  · exact .notTaken ctl d hi hd hc ht

/-- Everything an instruction can do when it answers a next state. -/
theorem exec_next {i : Instr} {s t : State} (h : exec i s = .next t) : ExecCases i s t := by
  cases i with
  | load tgt r =>
    simp only [exec, execLoad] at h
    split at h
    · exact register_cases rfl h
    · cases h
  | store src r mask =>
    simp only [exec, execStore] at h
    split at h
    · cases h
    · rename_i v _
      split at h
      · cases h
      · rename_i n hn
        obtain ⟨_, rfl⟩ := writeElem_ok hn
        obtain ⟨ht, hc⟩ := retire_next h
        exact .store src r mask v rfl hc ht
  | jump ctl =>
    rcases branchIf_next (b := true) h with ⟨_, ht⟩ | ⟨h', _⟩
    · exact .taken ctl rfl (by simp) (by simp [branchCondition]) ht
    · cases h'
  | wait ctl =>
    simp only [exec, execWait] at h
    split at h
    · rename_i hp
      injection h with h
      exact .waits ctl rfl hp h.symm
    · rename_i hp
      unfold branchTaken at h
      injection h with h
      exact .resumes ctl rfl hp h.symm
  | beq ctl a b => exact branch_cases rfl h
  | bne ctl a b => exact branch_cases rfl h
  | bge ctl a b => exact branch_cases rfl h
  | blt ctl a b => exact branch_cases rfl h
  | beqz ctl a => exact branch_cases rfl h
  | bnez ctl a => exact branch_cases rfl h
  | send src dest r trig =>
    simp only [exec, execSend] at h
    split at h
    · cases h
    · rename_i hd
      split at h
      · cases h
      · rename_i hm
        have hm : inMesh s.cfg dest = true := by simpa using hm
        split at h
        · rename_i hf
          injection h with h
          exact .sendHolds src dest r trig rfl hd hm hf h.symm
        · rename_i hf
          obtain ⟨ht, hc⟩ := retire_next h
          exact .sends src dest r trig rfl hd hm (by simpa using hf) hc ht
  | truth tgt a b c si imm table => exact register_cases rfl h
  | add tgt a b => exact register_cases rfl h
  | sub tgt a b => exact register_cases rfl h
  | andr tgt a => exact register_cases rfl h
  | orr tgt a => exact register_cases rfl h
  | shufl tgt src sel => exact register_cases rfl h

/-- An instruction changes no node but the executing one, no parameter and no instruction word. -/
theorem exec_frame {i : Instr} {s t : State} (h : ExecCases i s t) :
    t.cfg = s.cfg ∧ t.active = s.active ∧ (∀ id, id ≠ s.active → t.node id = s.node id) ∧
      t.cur.imem = s.cur.imem := by
  have key : ∀ (u : State) (n : Node), u.active = s.active → u.cfg = s.cfg →
      (∀ id, u.node id = s.node id) → t = u.setNode u.active n → n.imem = s.cur.imem →
      t.cfg = s.cfg ∧ t.active = s.active ∧ (∀ id, id ≠ s.active → t.node id = s.node id) ∧
        t.cur.imem = s.cur.imem := by
    rintro u n ha hc hn rfl hi
    exact ⟨hc, ha, fun id h => by rw [node_setNode_ne _ (by rwa [ha]), hn],
      by rw [cur_setNode_active]; exact hi⟩
  cases h with
  | register tgt v hi hc ht => exact key s _ rfl rfl (fun _ => rfl) ht rfl
  | store src r mask v hi hc ht => exact key s _ rfl rfl (fun _ => rfl) ht rfl
  | taken ctl hi hw hn ht => exact key s _ rfl rfl (fun _ => rfl) ht rfl
  | notTaken ctl d hi hd hc ht => exact key s _ rfl rfl (fun _ => rfl) ht rfl
  | waits ctl hi hp ht => exact ht ▸ ⟨rfl, rfl, fun _ _ => rfl, rfl⟩
  | resumes ctl hi hp ht => exact key s _ rfl rfl (fun _ => rfl) ht rfl
  | sendHolds src dest r trig hi hd hm hf ht => exact ht ▸ ⟨rfl, rfl, fun _ _ => rfl, rfl⟩
  | sends src dest r trig hi hd hm hf hc ht => exact key (s.post _) _ rfl rfl (fun _ => rfl) ht rfl

end Sys2Proof.Machine
end

