-- ==== Sys2Proof/Laws/Step.lean ====
section
/-! SUPPORT. Everything a step of the machine can do when it answers a next state, said once. -/

namespace Sys2Proof.Machine

section Turn
variable (s : State) (m : Move) (rest : List Move)

@[simp] theorem turn_cfg : (s.turn m rest).cfg = s.cfg := rfl
@[simp] theorem turn_nodes : (s.turn m rest).nodes = s.nodes := rfl
@[simp] theorem turn_net : (s.turn m rest).net = s.net := rfl
@[simp] theorem turn_active : (s.turn m rest).active = s.active := rfl
@[simp] theorem turn_node (id : NodeId) : (s.turn m rest).node id = s.node id := rfl

end Turn

/-- The state in which the node `id` makes its own step. -/
def State.turnOf (s : State) (id : NodeId) (rest : List Move) : State :=
  { s.turn (.node id) rest with active := id }

section TurnOf
variable (s : State) (id : NodeId) (rest : List Move)

@[simp] theorem turnOf_cfg : (s.turnOf id rest).cfg = s.cfg := rfl
@[simp] theorem turnOf_nodes : (s.turnOf id rest).nodes = s.nodes := rfl
@[simp] theorem turnOf_net : (s.turnOf id rest).net = s.net := rfl
@[simp] theorem turnOf_active : (s.turnOf id rest).active = id := rfl
@[simp] theorem turnOf_node (id' : NodeId) : (s.turnOf id rest).node id' = s.node id' := rfl
@[simp] theorem turnOf_cur : (s.turnOf id rest).cur = s.node id := rfl

end TurnOf

/-- The ways a step goes from `s` to `t`. -/
inductive StepCases (s t : State) : Prop where
  /-- No agent acts: no node, no message and no parameter changes. -/
  | holds (hc : t.cfg = s.cfg) (hn : t.nodes = s.nodes) (hm : t.net = s.net)
  | wakes (id : NodeId) (rest : List Move) (hs : s.sched = .node id :: rest)
      (hin : inMesh s.cfg id = true) (hi : (s.node id).idle = true) (hp : (s.node id).trigPend ≠ 0)
      (ht : t = (s.turnOf id rest).setNode id ((s.node id).wake s.cfg))
  | executes (id : NodeId) (rest : List Move) (i : Instr) (hs : s.sched = .node id :: rest)
      (hin : inMesh s.cfg id = true) (hi : (s.node id).idle = false)
      (hf : fetchInstr s.cfg (s.node id) = .ok i) (he : ExecCases i (s.turnOf id rest) t)
  | delivers (k : Nat) (keep : Bool) (rest : List Move) (m : Message) (n : Node)
      (hs : s.sched = .deliver k keep :: rest) (hk : s.net[k]? = some m)
      (hd : mayDeliver s.cfg.netOrder s.net k m = true) (hin : inMesh s.cfg m.target = true)
      (hr : receive s.cfg m keep (s.node m.target) = .ok n)
      (ht : t = State.setNode { s.turn (.deliver k keep) rest with net := s.net.eraseIdx k } m.target n)
  | injects (m : Message) (rest : List Move) (hs : s.sched = .inject m :: rest)
      (hh : s.cfg.hostMoves = true) (hm : messageOk s.cfg m = true) (hf : s.netFull = false)
      (ht : t = (s.turn (.inject m) rest).post m)

/-! ### The interleaving (R13) -/

theorem exec_sched {i : Instr} {s t : State} (h : ExecCases i s t) : t.sched = s.sched := by
  cases h <;> subst_vars <;> rfl

/-- A step puts the move it makes last, whatever it does. -/
theorem step_sched {s t : State} {m : Move} {rest : List Move} (hs : s.sched = m :: rest)
    (h : step s = .next t) : t.sched = rest ++ [m] := by
  simp only [step, hs] at h
  cases m with
  | node id =>
    simp only [runMove] at h
    split at h
    · unfold nodeStep at h
      split at h
      · split at h <;> (injection h with h; subst h; rfl)
      · split at h
        · exact exec_sched (exec_next h)
        · cases h
    · injection h with h
      subst h
      rfl
  | deliver k keep =>
    rcases deliver_next h with rfl | ⟨_, _, _, _, _, _, rfl⟩ <;> rfl
  | inject m =>
    rcases inject_next h with rfl | ⟨rfl, _⟩ <;> rfl

/-- Everything a step can do when it answers a next state. -/
theorem step_next {s t : State} (h : step s = .next t) : StepCases s t := by
  unfold step at h
  split at h
  · injection h with h
    subst h
    exact .holds rfl rfl rfl
  · rename_i m rest hs
    cases m with
    | node id =>
      simp only [runMove] at h
      split at h
      · rename_i hin
        change nodeStep (s.turnOf id rest) = _ at h
        unfold nodeStep at h
        split at h
        · rename_i hi
          split at h
          · injection h with h
            subst h
            exact .holds rfl rfl rfl
          · rename_i hp
            injection h with h
            exact .wakes id rest hs hin hi hp h.symm
        · rename_i hi
          split at h
          · rename_i i hf
            exact .executes id rest i hs hin (by simpa using hi) hf (exec_next h)
          · cases h
      · injection h with h
        subst h
        exact .holds rfl rfl rfl
    | deliver k keep =>
      rcases deliver_next h with rfl | ⟨m, n, hk, hd, hin, hr, ht⟩
      · exact .holds rfl rfl rfl
      · exact .delivers k keep rest m n hs hk hd hin hr ht
    | inject m =>
      rcases inject_next h with rfl | ⟨ht, hh, hm, hf⟩
      · exact .holds rfl rfl rfl
      · exact .injects m rest hs hh hm hf ht

theorem node_of_nodes {s t : State} (hc : t.cfg = s.cfg) (hn : t.nodes = s.nodes) (id : NodeId) :
    t.node id = s.node id := by
  simp [State.node, hc, hn]

end Sys2Proof.Machine
end

