-- ==== Sys2Proof/Laws/Fairness.lean ====
section
/-! SUPPORT. Interleavings in which every agent has its turn (spec/70_reset_and_hazards.md rule R276). -/

namespace Sys2Proof.Machine

/-- Under every configuration there is an interleaving in which every agent has its turn. -/
theorem roundRobin_everyAgentMoves (s : State) (keep : Bool) :
    State.EveryAgentMoves { s with sched := roundRobin s.cfg keep } := by
  refine ⟨fun id h => ?_, keep, by simp [roundRobin]⟩
  have hr := id.row.isLt
  have hc := id.col.isLt
  simp only [roundRobin, List.mem_append, List.mem_map, List.mem_filter]
  refine .inl ⟨id, ⟨⟨⟨16 * id.row.toNat + id.col.toNat, by omega⟩, List.mem_finRange _, ?_⟩,
    inMesh_iff.mpr h⟩, rfl⟩
  obtain ⟨r, c⟩ := id
  congr <;> apply BitVec.eq_of_toNat_eq <;> simp at hr hc ⊢ <;> omega

/-- A step leaves the set of moves in the interleaving as it was. -/
theorem mem_sched_step {s t : State} (h : step s = .next t) (m : Move) : m ∈ t.sched ↔ m ∈ s.sched := by
  cases hs : s.sched with
  | nil =>
    simp only [step, hs] at h
    injection h with h
    rw [← h, hs]
  | cons m' rest =>
    rw [step_sched hs h]
    simp [or_comm]

end Sys2Proof.Machine
end

