-- ==== Sys2Proof/Laws/Invariant.lean ====
section
/-! SUPPORT. The invariant part by part, and that each operation on a node or on the machine keeps it. -/

namespace Sys2Proof.Machine

theorem inv_iff (s : State) :
    s.inv = true ↔ s.cfg.valid = true ∧ rising 256 (s.nodes.map Prod.fst) = true ∧
      (∀ e ∈ s.nodes, listedNodeOk s.cfg e = true) ∧ (∀ m ∈ s.net, messageOk s.cfg m = true) ∧
      withinCapacity s = true := by
  simp [State.inv, and_assoc]

theorem node_wf_iff (c : Config) (n : Node) :
    n.wf c = true ↔ Memory.wf n.dmem = true ∧ rising 1024 (n.imem.map Prod.fst) = true ∧
      rising 1024 n.written = true ∧ (c.trigCoalesce = .oneBit → n.trigPend ≤ 1) := by
  cases h : c.trigCoalesce <;> simp [Node.wf, h, and_assoc]

/-! ### Operations on a node -/

theorem launch_wf (c : Config) : (Node.launch c).wf c = true := by
  simp [node_wf_iff, Node.launch, rising, Memory.wf]

/-- An update of registers, `pc`, `IDLE`, `DEFAULT` or `MARK_ADDR` keeps a node well formed. -/
theorem wf_of_same {c : Config} {n n' : Node} (h : n.wf c = true) (h1 : n'.dmem = n.dmem)
    (h2 : n'.imem = n.imem) (h3 : n'.written = n.written) (h4 : n'.trigPend = n.trigPend) :
    n'.wf c = true := by
  unfold Node.wf at h ⊢
  rw [h1, h2, h3, h4]
  exact h

theorem wf_putElem {c : Config} {n : Node} (h : n.wf c = true) (ea : ElemAddr) (v : Byte) :
    (n.putElem ea v).wf c = true := by
  obtain ⟨h1, h2, h3, h4⟩ := (node_wf_iff c n).mp h
  exact (node_wf_iff _ _).mpr
    ⟨memory_wf_write v ea.isLt h1, h2, rising_insertNat (entryOf_lt ea) h3, h4⟩

theorem wf_pend {c : Config} {n : Node} (h : n.wf c = true) : (n.pend c).wf c = true := by
  obtain ⟨h1, h2, h3, _⟩ := (node_wf_iff c n).mp h
  exact (node_wf_iff _ _).mpr ⟨h1, h2, h3, fun hc => by simp [Node.pend, hc]⟩

theorem wf_consume {c : Config} {n : Node} (h : n.wf c = true) : (n.consume c).wf c = true := by
  obtain ⟨h1, h2, h3, _⟩ := (node_wf_iff c n).mp h
  exact (node_wf_iff _ _).mpr ⟨h1, h2, h3, fun hc => by simp [Node.consume, hc]⟩

theorem wf_receive {c : Config} {m : Message} {keep : Bool} {n n' : Node} (h : n.wf c = true)
    (hr : receive c m keep n = .ok n') : n'.wf c = true := by
  obtain ⟨_, rfl | rfl⟩ := receive_ok hr
  · exact wf_putElem h _ _
  · exact wf_pend (wf_putElem h _ _)

/-- A word placed by a launch keeps the canonical form (R273). -/
theorem wf_placeWord {c : Config} {n : Node} (h : n.wf c = true) (w : Word) :
    (n.placeWord c w).wf c = true := by
  obtain ⟨h1, h2, h3, h4⟩ := (node_wf_iff c n).mp h
  have hp := n.pc.isLt
  unfold Node.placeWord
  cases hm : c.memUnified <;> simp only [] <;> refine (node_wf_iff _ _).mpr ?_
  · exact ⟨h1, rising_insertAt hp h2, h3, h4⟩
  · refine ⟨?_, h2, rising_filter _ h3, h4⟩
    exact memory_wf_write _ (by omega) (memory_wf_write _ (by omega)
      (memory_wf_write _ (by omega) (memory_wf_write _ (by omega) h1)))
  · exact ⟨h1, rising_insertAt hp h2, h3, h4⟩

/-! ### Operations on the machine -/

/-- Every node, listed or not, is well formed. -/
theorem node_wf {s : State} (h : s.inv = true) (id : NodeId) : (s.node id).wf s.cfg = true := by
  unfold State.node
  cases hl : lookup s.nodes (nodeKey id) with
  | none => exact launch_wf _
  | some n =>
    have := ((inv_iff s).mp h).2.2.1 _ (lookup_mem hl)
    simp [listedNodeOk] at this
    exact this.1.2

theorem inv_setNode {s : State} (h : s.inv = true) {id : NodeId} {n : Node}
    (hin : inMesh s.cfg id = true) (hn : n.wf s.cfg = true) : (s.setNode id n).inv = true := by
  obtain ⟨h1, h2, h3, h4, h5⟩ := (inv_iff s).mp h
  refine (inv_iff _).mpr ⟨h1, ?_, ?_, h4, h5⟩
  · unfold State.setNode
    by_cases hl : n = Node.launch s.cfg
    · simp only [hl, if_true]
      exact rising_eraseAt h2
    · simp only [hl, if_false]
      exact rising_insertAt (nodeKey_lt id) h2
  · unfold State.setNode
    by_cases hl : n = Node.launch s.cfg
    · simp only [hl, if_true]
      exact fun e he => h3 e (mem_eraseAt he)
    · simp only [hl, if_false]
      intro e he
      rcases mem_insertAt he with rfl | he
      · have hc := id.col.isLt
        have h1 : (16 * id.row.toNat + id.col.toNat) / 16 = id.row.toNat := by omega
        have h2 : (16 * id.row.toNat + id.col.toNat) % 16 = id.col.toNat := by omega
        simp only [inMesh, Bool.and_eq_true, decide_eq_true_eq] at hin
        simp [listedNodeOk, nodeKey, h1, h2, hn, hin, hl]
      · exact h3 e he

theorem inv_of_same {s t : State} (h : s.inv = true) (hc : t.cfg = s.cfg) (hn : t.nodes = s.nodes)
    (hm : t.net = s.net) : t.inv = true := by
  have : t.inv = s.inv := by
    unfold State.inv withinCapacity
    rw [hc, hn, hm]
  rw [this, h]

theorem inv_post {s : State} (h : s.inv = true) {m : Message} (hm : messageOk s.cfg m = true)
    (hf : s.netFull = false) : (s.post m).inv = true := by
  obtain ⟨h1, h2, h3, h4, _⟩ := (inv_iff s).mp h
  refine (inv_iff _).mpr ⟨h1, h2, h3, ?_, ?_⟩
  · intro m' hm'
    rcases List.mem_append.mp hm' with h | h
    · exact h4 _ h
    · rw [List.mem_singleton.mp h]
      exact hm
  · unfold withinCapacity
    unfold State.netFull at hf
    cases hc : s.cfg.netCapacity <;> simp [hc] at hf ⊢
    omega

theorem inv_eraseIdx {s : State} (h : s.inv = true) (k : Nat) :
    State.inv { s with net := s.net.eraseIdx k } = true := by
  obtain ⟨h1, h2, h3, h4, h5⟩ := (inv_iff s).mp h
  refine (inv_iff _).mpr ⟨h1, h2, h3, fun m hm => h4 m (List.mem_of_mem_eraseIdx hm), ?_⟩
  unfold withinCapacity at h5 ⊢
  have := List.length_eraseIdx_le s.net k
  cases hc : s.cfg.netCapacity <;> simp [hc] at h5 ⊢
  omega

/-- A message of a `SEND` to a node of the mesh has the form of the configuration. -/
theorem sendMessage_ok (s : State) (src : Reg) {dest : NodeId} (elem : ElemRef) (trig : Bool)
    (h : inMesh s.cfg dest = true) : messageOk s.cfg (sendMessage src dest elem trig s) = true := by
  simp only [messageOk, sendMessage, h, messageAddr]
  cases s.cfg.offsetResolve <;> rfl

end Sys2Proof.Machine
end

