-- ==== Sys2Proof/Laws/PerInstr.lean ====
section
/-! SUPPORT. The family FixedBits: the word the encoder writes for an instruction carries the opcode, and the `COMP` or `OP` value, of that instruction's row of the opcode table (spec/30_encoding.md rules R81, R93, R94, R103). -/

namespace Sys2Proof.Laws.FixedBits

open Sys2Proof.Machine

/-- Every fixed field of the instruction's row stands in its word. -/
def Statement (i : Instr) : Prop := ∀ f ∈ fixedFields i, f.InWord (encode i)

theorem load (tgt : Reg) (elem : ElemRef) : Statement (.load tgt elem) := by
  simp (disch := omega) [Statement, fixedFields, FixedField.InWord, encode, encodeElem, extract_place_same,
    extract_place_apart]

theorem store (src : Reg) (elem : ElemRef) (mask : Byte) : Statement (.store src elem mask) := by
  simp (disch := omega) [Statement, fixedFields, FixedField.InWord, encode, encodeElem, extract_place_same,
    extract_place_apart]

theorem ctl_fields (comp : BitVec 3) (c : BranchCtl) :
    (encodeCtl comp c).extractLsb' 29 3 = 0b010#3 ∧ (encodeCtl comp c).extractLsb' 25 3 = comp := by
  simp (disch := omega) [encodeCtl, placeBit, extract_place_same, extract_place_apart]

theorem jump (ctl : BranchCtl) : Statement (.jump ctl) := by
  simp [Statement, fixedFields, FixedField.InWord, encode, ctl_fields]

theorem wait (ctl : BranchCtl) : Statement (.wait ctl) := by
  simp [Statement, fixedFields, FixedField.InWord, encode, ctl_fields]

theorem beq (ctl : BranchCtl) (a b : Reg) : Statement (.beq ctl a b) := by
  simp (disch := omega) [Statement, fixedFields, FixedField.InWord, encode, ctl_fields, extract_place_apart]

theorem bne (ctl : BranchCtl) (a b : Reg) : Statement (.bne ctl a b) := by
  simp (disch := omega) [Statement, fixedFields, FixedField.InWord, encode, ctl_fields, extract_place_apart]

theorem bge (ctl : BranchCtl) (a b : Reg) : Statement (.bge ctl a b) := by
  simp (disch := omega) [Statement, fixedFields, FixedField.InWord, encode, ctl_fields, extract_place_apart]

theorem blt (ctl : BranchCtl) (a b : Reg) : Statement (.blt ctl a b) := by
  simp (disch := omega) [Statement, fixedFields, FixedField.InWord, encode, ctl_fields, extract_place_apart]

theorem beqz (ctl : BranchCtl) (a : Reg) : Statement (.beqz ctl a) := by
  simp (disch := omega) [Statement, fixedFields, FixedField.InWord, encode, ctl_fields, extract_place_apart]

theorem bnez (ctl : BranchCtl) (a : Reg) : Statement (.bnez ctl a) := by
  simp (disch := omega) [Statement, fixedFields, FixedField.InWord, encode, ctl_fields, extract_place_apart]

theorem send (src : Reg) (dest : NodeId) (elem : ElemRef) (trig : Bool) :
    Statement (.send src dest elem trig) := by
  simp (disch := omega) [Statement, fixedFields, FixedField.InWord, encode, encodeElem, placeBit,
    extract_place_same, extract_place_apart]

theorem truth (tgt a b c : Reg) (si : Bool) (imm table : Byte) :
    Statement (.truth tgt a b c si imm table) := by
  simp (disch := omega) [Statement, fixedFields, FixedField.InWord, encode, placeBit, extract_place_same,
    extract_place_apart]

theorem add (tgt a b : Reg) : Statement (.add tgt a b) := by
  simp (disch := omega) [Statement, fixedFields, FixedField.InWord, encode, extract_place_same,
    extract_place_apart]

theorem sub (tgt a b : Reg) : Statement (.sub tgt a b) := by
  simp (disch := omega) [Statement, fixedFields, FixedField.InWord, encode, extract_place_same,
    extract_place_apart]

theorem andr (tgt a : Reg) : Statement (.andr tgt a) := by
  simp (disch := omega) [Statement, fixedFields, FixedField.InWord, encode, extract_place_same,
    extract_place_apart]

theorem orr (tgt a : Reg) : Statement (.orr tgt a) := by
  simp (disch := omega) [Statement, fixedFields, FixedField.InWord, encode, extract_place_same,
    extract_place_apart]

theorem shufl (tgt src : Reg) (sel : Selectors) : Statement (.shufl tgt src sel) := by
  simp (disch := omega) [Statement, fixedFields, FixedField.InWord, encode, encodeSelectors, extract_place_same,
    extract_place_apart]

end Sys2Proof.Laws.FixedBits
end

