-- ==== Sys2Proof/Tests/Slice0.lean ====
section
/-! SUPPORT. Tests of the model against words and results of spec/95_test_vectors.md, and a witness for the hypotheses of each statement. -/

namespace Sys2Proof.Tests

open Sys2Proof.Machine

/-! ### Small states -/

/-- The node of spec/95_test_vectors.md: entry 0x020 holds 0x44332211, `MARK_ADDR` is 0x111. -/
def node95 : Node :=
  { Node.launch Config.default with
    markAddr := 0x111, dmem := [(0x80, 0x11), (0x81, 0x22), (0x82, 0x33), (0x83, 0x44)] }

/-- The node with registers `R1` and `R2` set. -/
def regs12 (a b : Byte) : Node := (node95.setReg 1 a).setReg 2 b

/-- The machine of 256 nodes whose node (2, 3) is `n`. -/
def withNode (n : Node) : State := State.reset.setNode ⟨2, 3⟩ n

/-- What node (2, 3) shows after executing `i`. -/
def shows {α : Type} (i : Instr) (n : Node) (f : Node → α) : Option α :=
  match exec i (withNode n) with
  | .next t => some (f t.cur)
  | .fault _ => none
  | .refused _ => none

/-- What a state shows after one step. -/
def showsStep {α : Type} (s : State) (f : State → α) : Option α :=
  match step s with
  | .next t => some (f t)
  | .fault _ => none
  | .refused _ => none

/-- Why a result stopped. -/
def stopOf (r : Result) : Option Refusal :=
  match r with
  | .next _ => none
  | .fault f => nomatch f
  | .refused x => some x

/-- Branch fields with a target alone. -/
def goto (target : Index) : BranchCtl := { mark := false, idle := false, offset := 0b00, target := target }

/-- Entry 0x020, upper slot. -/
def elem82 (offset : BitVec 2) : ElemRef := { address := 0x020, slot := 1, offset := offset }

/-- Entry 0x020, lower slot. -/
def elem80 (offset : BitVec 2) : ElemRef := { address := 0x020, slot := 0, offset := offset }

/-! ### Well-formedness: an ill-formed term for each check (R95, R99) -/

theorem test_truth_si1_with_srcC_is_ill_formed :
    Instr.wellFormed (.truth 1 0 0 7 true 0x5A 0xFE) = false := by decide

theorem test_truth_si0_with_imm_is_ill_formed :
    Instr.wellFormed (.truth 4 1 2 3 false 0x01 0xCA) = false := by decide

/-! ### Decoding: one word per instruction, spec/95_test_vectors.md section 2.1 -/

theorem test_decode_load : decode .refuse 0b000_00000_01_0101010101_1_00000_101_000#32 =
    .instr (.load 5 ⟨0x155, 1, 1⟩) := by decide

theorem test_decode_store : decode .refuse 0b001_00000_11_1010101010_0_10100101_110#32 =
    .instr (.store 6 ⟨0x2AA, 0, 3⟩ 0xA5) := by decide

theorem test_decode_jump : decode .refuse 0b010_1_000_1_11_1111111111_000_000_000_000#32 =
    .instr (.jump ⟨true, true, 3, 0x3FF⟩) := by decide

theorem test_decode_wait : decode .refuse 0b010_0_001_0_00_0000000001_000_000_000_000#32 =
    .instr (.wait (goto 1)) := by decide

theorem test_decode_beq : decode .refuse 0b010_0_010_0_00_0000001000_000_010_000_010#32 =
    .instr (.beq (goto 8) 2 2) := by decide

theorem test_decode_bne : decode .refuse 0b010_0_011_0_00_0100000000_000_010_000_001#32 =
    .instr (.bne (goto 0x100) 1 2) := by decide

theorem test_decode_bge : decode .refuse 0b010_0_100_0_00_0000000010_000_001_000_000#32 =
    .instr (.bge (goto 2) 0 1) := by decide

theorem test_decode_blt : decode .refuse 0b010_0_101_0_00_0000000100_000_001_000_000#32 =
    .instr (.blt (goto 4) 0 1) := by decide

theorem test_decode_beqz : decode .refuse 0b010_0_110_0_00_1111111111_000_000_000_011#32 =
    .instr (.beqz (goto 0x3FF) 3) := by decide

theorem test_decode_bnez : decode .refuse 0b010_0_111_0_00_0000000100_000_000_000_001#32 =
    .instr (.bnez (goto 4) 1) := by decide

theorem test_decode_send : decode .refuse 0b011_0000_1_11_1111111111_1_1111_1001_111#32 =
    .instr (.send 7 ⟨15, 9⟩ ⟨0x3FF, 1, 3⟩ true) := by decide

theorem test_decode_truth_register : decode .refuse 0b100_11001010_0_00000000_011_010_100_001#32 =
    .instr (.truth 4 1 2 3 false 0 0xCA) := by decide

theorem test_decode_truth_immediate : decode .refuse 0b100_11111110_1_01011010_000_000_001_000#32 =
    .instr (.truth 1 0 0 0 true 0x5A 0xFE) := by decide

theorem test_decode_add : decode .refuse 0b101_00000_00_0000000000000_001_011_011#32 =
    .instr (.add 3 3 1) := by decide

theorem test_decode_sub : decode .refuse 0b101_00000_01_0000000000000_010_001_001#32 =
    .instr (.sub 1 1 2) := by decide

theorem test_decode_andr : decode .refuse 0b101_00000_10_0000000000000_000_010_000#32 =
    .instr (.andr 2 0) := by decide

theorem test_decode_orr : decode .refuse 0b101_00000_11_0000000000000_000_010_000#32 =
    .instr (.orr 2 0) := by decide

theorem test_decode_shufl : decode .refuse 0b11_000_001_010_011_100_101_110_111_001_000#32 =
    .instr (.shufl 1 0 ⟨0, 1, 2, 3, 4, 5, 6, 7⟩) := by decide

/-- Section 2.2: bit 29 is the top bit of `B7`. -/
theorem test_decode_shufl_bit29 : decode .refuse 0xE0000000#32 =
    .instr (.shufl 0 0 ⟨4, 0, 0, 0, 0, 0, 0, 0⟩) := by decide

/-- Section 2.2: `SRC_A` and `SRC_B` of `JUMP` are ignored, not reserved. -/
theorem test_decode_ignores_unused_fields :
    decode .refuse 0x400001C7#32 = .instr (.jump (goto 0)) ∧
      decode .refuse 0x9FD5AE08#32 = .instr (.truth 1 0 0 0 true 0x5A 0xFE) := by decide

/-- Section 2.2: a reserved bit rejects the word by name, or does not matter under `ignore`. -/
theorem test_decode_reserved :
    decode .refuse 0x01000000#32 = .reserved 0x01000000 ∧
      decode .refuse 0x00000001#32 = .reserved 0x00000001 ∧
      decode .refuse 0x40000200#32 = .reserved 0x40000200 ∧
      decode .refuse 0xA0000200#32 = .reserved 0xA0000200 ∧
      decode .ignore 0x01000000#32 = .instr (.load 0 ⟨0, 0, 0⟩) := by decide

/-- The encoder writes words of section 2.1. -/
theorem test_encode :
    encode (.send 7 ⟨15, 9⟩ ⟨0x3FF, 1, 3⟩ true) = 0x61FFFFCF ∧
      encode (.truth 1 0 0 0 true 0x5A 0xFE) = 0x9FD5A008 ∧
      encode (.shufl 0 0 ⟨7, 6, 5, 4, 3, 2, 1, 0⟩) = 0xFEB1A200 := by decide

/-! ### One step of each instruction, spec/95_test_vectors.md sections 3 to 8 -/

theorem test_load_default : shows (.load 0 (elem80 0)) { node95 with dflt := 1 }
    (fun n => (n.reg 0, n.pc)) = some (0x22, 1) := by decide

theorem test_load_upper : shows (.load 3 (elem82 3)) node95 (fun n => (n.reg 3, n.pc)) =
    some (0x44, 1) := by decide

theorem test_store_masked : shows (.store 0 (elem82 3) 0x0F) (node95.setReg 0 0x11)
    (fun n => (n.dmem, n.pc)) =
    some ([(0x80, 0x11), (0x81, 0x22), (0x82, 0x33), (0x83, 0x41)], 1) := by decide

/-- The entry written is recorded (R74). -/
theorem test_store_inverse_default : shows (.store 3 (elem80 1) 0x80) (node95.setReg 3 0xFF)
    (fun n => (n.dmem, n.written)) =
    some ([(0x80, 0x11), (0x81, 0xA2), (0x82, 0x33), (0x83, 0x44)], [0x020]) := by decide

theorem test_jump_all_fields : shows (.jump ⟨true, true, 3, 0x040⟩) { node95 with pc := 5 }
    (fun n => (n.pc, n.idle, n.markAddr, n.dflt)) = some (0x040, true, 0x040, 1) := by decide

theorem test_jump_flip : shows (.jump ⟨false, false, 1, 0x040⟩) { node95 with pc := 5, dflt := 1 }
    (fun n => (n.pc, n.idle, n.markAddr, n.dflt)) = some (0x040, false, 0x111, 0) := by decide

/-- Section 8.3: the `WAIT` holds and none of its effects happens. -/
theorem test_wait_holds : shows (.wait ⟨true, false, 3, 0x020⟩) { node95 with pc := 4, markAddr := 9 }
    (fun n => (n.pc, n.markAddr, n.dflt)) = some (4, 9, 0) := by decide

theorem test_wait_completes : shows (.wait ⟨true, false, 3, 0x020⟩)
    { node95 with pc := 4, markAddr := 9, trigPend := 1 }
    (fun n => (n.pc, n.trigPend, n.markAddr, n.dflt, n.idle)) = some (0x020, 0, 0x020, 1, false) := by
  decide

theorem test_beq : shows (.beq (goto 0x040) 1 2) { regs12 0x12 0x12 with pc := 5 } (·.pc) = some 0x040 ∧
    shows (.beq (goto 0x040) 1 2) { regs12 0x12 0x13 with pc := 5 } (·.pc) = some 6 := by decide

theorem test_bne : shows (.bne (goto 0x040) 1 2) { regs12 0x80 0x00 with pc := 5 } (·.pc) = some 0x040 ∧
    shows (.bne (goto 0x040) 1 2) { regs12 0x12 0x12 with pc := 5 } (·.pc) = some 6 := by decide

theorem test_bge : shows (.bge (goto 0x040) 1 2) { regs12 0x80 0x7F with pc := 5 } (·.pc) = some 0x040 ∧
    shows (.bge (goto 0x040) 1 2) { regs12 0x12 0x13 with pc := 5 } (·.pc) = some 6 := by decide

theorem test_blt : shows (.blt (goto 0x040) 1 2) { regs12 0x7F 0x80 with pc := 5 } (·.pc) = some 0x040 ∧
    shows (.blt (goto 0x040) 1 2) { regs12 0x12 0x12 with pc := 5 } (·.pc) = some 6 := by decide

theorem test_beqz : shows (.beqz ⟨true, true, 1, 0x040⟩ 1) { regs12 0 1 with pc := 5 }
    (fun n => (n.pc, n.idle, n.markAddr, n.dflt)) = some (0x040, true, 0x040, 1) := by decide

theorem test_bnez : shows (.bnez ⟨true, true, 0, 0x040⟩ 1) { regs12 0 1 with pc := 5 }
    (fun n => (n.pc, n.idle, n.markAddr, n.dflt)) = some (6, false, 0x111, 0) := by decide

/-- Section 4.2: not taken, with `OFFSET` other than `2b00`. -/
theorem test_offset_not_taken : stopOf (exec (.bnez ⟨true, true, 1, 0x040⟩ 1) (withNode (regs12 0 1))) =
    some .branchOffsetNotTaken := by decide

/-- Section 8.1: the sender's `DEFAULT` resolves the mode `DEF`. -/
theorem test_send_message : showsStep
      ((withNode { node95.setReg 1 0x5A with dflt := 1, markAddr := 0 }).withFetchWord 32 0x60003009)
      (fun t => (t.net, t.cur.pc)) =
    some ([⟨⟨0, 1⟩, .resolved 0x00D, 0x5A, false, .node ⟨2, 3⟩⟩], 1) := by decide

/-- Section 8.1: the two refusals of `SEND`. -/
theorem test_send_refused :
    stopOf (exec (.send 1 ⟨2, 3⟩ ⟨0, 0, 2⟩ false) State.reset) = some .sendToSelf ∧
      stopOf (exec (.send 1 ⟨5, 0⟩ ⟨0, 0, 2⟩ false)
        { State.reset with cfg := { Config.default with meshRows := 4 } }) = some .sendOutsideMesh := by
  decide

/-- Section 5: with these inputs the result is the table. -/
theorem test_truth_lanes : shows (.truth 4 1 2 3 false 0 0xCA) ((regs12 0xF0 0xCC).setReg 3 0xAA)
    (·.reg 4) = some 0xCA := by decide

theorem test_truth_immediate_target_is_source : shows (.truth 1 1 2 0 true 0xF0 0xCA) (regs12 0x0F 0x33)
    (·.reg 1) = some 0xF3 := by decide

theorem test_add_wraps : shows (.add 3 1 2) (regs12 0xFF 0x01) (·.reg 3) = some 0x00 ∧
    addByte .saturate 0xFF 0x01 = 0xFF := by decide

theorem test_add_target_is_source : shows (.add 1 1 1) (regs12 0x55 0) (·.reg 1) = some 0xAA := by decide

theorem test_sub_wraps : shows (.sub 3 1 2) (regs12 0x12 0x34) (·.reg 3) = some 0xDE ∧
    subByte .saturate 0x12 0x34 = 0x00 := by decide

theorem test_sub_target_is_subtrahend : shows (.sub 2 1 2) (regs12 0x10 0x01) (·.reg 2) = some 0x0F := by
  decide

theorem test_andr : shows (.andr 2 1) (regs12 0xFF 0) (·.reg 2) = some 0xFF ∧
    shows (.andr 2 1) (regs12 0x7F 0) (·.reg 2) = some 0x00 := by decide

theorem test_orr : shows (.orr 2 1) (regs12 0x00 1) (·.reg 2) = some 0x00 ∧
    shows (.orr 2 1) (regs12 0x80 0) (·.reg 2) = some 0xFF := by decide

theorem test_shufl_rotates : shows (.shufl 1 0 ⟨6, 5, 4, 3, 2, 1, 0, 7⟩) (node95.setReg 0 0x4B) (·.reg 1) =
    some 0x96 := by decide

theorem test_shufl_target_is_source : shows (.shufl 0 0 ⟨0, 1, 2, 3, 4, 5, 6, 7⟩) (node95.setReg 0 0x1A)
    (·.reg 0) = some 0x58 := by decide

/-- Section 4.3: the end of the instruction store. -/
theorem test_end_of_store :
    stopOf (exec (.add 0 0 0) (withNode { node95 with pc := 1023 })) = some .fallOffEnd ∧
      shows (.jump (goto 0)) { node95 with pc := 1023 } (·.pc) = some 0 := by decide

/-! ### Steps of the machine -/

/-- Section 8.2's target, and a machine about to deliver to it. -/
def delivering (n : Node) (trig : Bool) : State :=
  { withNode n with
    sched := [.deliver 0 true], net := [⟨⟨2, 3⟩, .resolved 0x081, 0xFF, trig, .node ⟨0, 0⟩⟩] }

/-- Section 8.2: a delivery to an idle node writes the element and leaves it idle; the trigger is pending. -/
theorem test_delivery : showsStep (delivering { node95 with idle := true, markAddr := 9 } true)
    (fun t => (Memory.read (t.node ⟨2, 3⟩).dmem 0x81, (t.node ⟨2, 3⟩).trigPend,
      (t.node ⟨2, 3⟩).idle, t.net)) = some (some 0xFF, 1, true, []) := by decide

/-- Section 8.3: the wake. -/
theorem test_wake : showsStep (withNode { node95 with idle := true, trigPend := 1, markAddr := 9, pc := 3 })
    (fun t => (t.cur.pc, t.cur.idle, t.cur.trigPend)) = some (9, false, 0) := by decide

/-- A placed word is the next step's instruction, in the instruction store and in a unified memory. -/
theorem test_withFetchWord :
    showsStep (State.reset.withFetchWord 32 0xA0C00010) (fun t => (t.cur.reg 2, t.cur.pc)) = some (0, 1) ∧
      showsStep (State.withFetchWord { State.reset with cfg := { Config.default with memUnified := .unified } }
        32 0x51008000) (fun t => (t.cur.pc, t.cur.idle)) = some (8, true) := by decide

theorem test_decodeTableWord : decodeTableWord 32 0xA0C00010 = some (.orr 2 0) ∧
    decodeTableWord 32 0x01000000 = none ∧ decodeTableWord 40 0 = none := by decide

/-- Nothing was placed: the first step after reset is refused (notes/assumptions/10). -/
theorem test_reset_has_no_program : stopOf (step State.reset) =
    some (.unwrittenRead (.instruction 0)) := by decide

/-! ### Witnesses: states that meet the hypotheses of the statements, clause by clause -/

/-- Node (2, 3) at index 1023. -/
def at1023 (p : PcFallthrough) : State :=
  State.setNode { State.reset with cfg := { Config.default with pcFallthrough := p } } ⟨2, 3⟩
    { node95 with pc := 1023 }

theorem witness_canAdvance : (withNode { node95 with pc := 1022 }).CanAdvance ∧ (at1023 .wrap).CanAdvance := by
  constructor
  · exact Or.inl (by decide)
  · exact Or.inr (by decide)

theorem witness_DecodeOfEncode : Instr.wellFormed (.truth 7 7 7 0 true 0xFF 0xFF) = true ∧
    Instr.wellFormed (.truth 7 7 7 7 false 0 0xFF) = true := by decide

theorem witness_EncodeOfDecode :
    0xFFFFFFFF#32 &&& rsvdMask (formatOf (decodeFields 0xFFFFFFFF#32)) = 0#32 ∧
    0x9FFFFFFF#32 &&& rsvdMask (formatOf (decodeFields 0x9FFFFFFF#32)) = 0#32 := by decide

theorem witness_ReservedBits : 0x00000000#32 &&& rsvdMask (formatOf (decodeFields 0x00000000#32)) = 0#32 ∧
    0x00000001#32 &&& rsvdMask (formatOf (decodeFields 0x00000001#32)) ≠ 0#32 := by decide

theorem witness_MajorOpcode :
    (0x00000000#32).extractLsb' 29 3 = 0#3 ∧ (0x20000000#32).extractLsb' 29 3 = 1#3 ∧
      (0x40000000#32).extractLsb' 29 3 = 2#3 ∧ (0x60000000#32).extractLsb' 29 3 = 3#3 ∧
      (0x80000000#32).extractLsb' 29 3 = 4#3 ∧ (0xA0000000#32).extractLsb' 29 3 = 5#3 ∧
      (0xC0000000#32).extractLsb' 29 3 = 6#3 ∧ (0xFFFFFFFF#32).extractLsb' 29 3 = 7#3 ∧
      (0xC0000000#32).extractLsb' 30 2 = 3#2 := by decide

/-- The inner clauses of `FormatsPlaceTheirFields`: a word of each `COMP` and of each `OP`. -/
theorem witness_FormatsPlaceTheirFields :
    (0x40000000 / 2 ^ 25 % 2 ^ 3 = 0 ∧ 0x42000000 / 2 ^ 25 % 2 ^ 3 = 1 ∧ 0x44000000 / 2 ^ 25 % 2 ^ 3 = 2 ∧
      0x46000000 / 2 ^ 25 % 2 ^ 3 = 3 ∧ 0x48000000 / 2 ^ 25 % 2 ^ 3 = 4 ∧ 0x4A000000 / 2 ^ 25 % 2 ^ 3 = 5 ∧
      0x4C000000 / 2 ^ 25 % 2 ^ 3 = 6 ∧ 0x4E000000 / 2 ^ 25 % 2 ^ 3 = 7) ∧
    (0xA0000000 / 2 ^ 22 % 2 ^ 2 = 0 ∧ 0xA0400000 / 2 ^ 22 % 2 ^ 2 = 1 ∧ 0xA0800000 / 2 ^ 22 % 2 ^ 2 = 2 ∧
      0xA0C00000 / 2 ^ 22 % 2 ^ 2 = 3) := by decide

/-- `LOAD` and `STORE`: an element with a value at either end of memory, and one without. -/
def edges : State := withNode { node95 with dmem := [(0, 0xA7), (4095, 0xDE)] }

theorem witness_LoadReadsTheElement : edges.CanAdvance ∧ edges.DataOpen edges.active 0 ∧
    edges.DataOpen edges.active 4095 ∧
    Memory.read edges.cur.dmem (elemAddr ⟨0, 0, 2⟩ edges.cur.dflt).toNat = some 0xA7 ∧
    Memory.read edges.cur.dmem (elemAddr ⟨0x3FF, 1, 3⟩ edges.cur.dflt).toNat = some 0xDE := by
  refine ⟨Or.inl (by decide), fun h => absurd h (by decide), fun h => absurd h (by decide), ?_, ?_⟩ <;> decide

/-- `STORE` to an element with a value, and to one without, with a mask of each kind. -/
theorem witness_StoreUpdates : edges.cfg.maskPolarity = .oneUpdates ∧ edges.CanAdvance ∧
    edges.DataOpen edges.active (elemAddr ⟨0x3FF, 1, 3⟩ edges.cur.dflt) ∧
    Memory.read edges.cur.dmem (elemAddr ⟨0x3FF, 1, 3⟩ edges.cur.dflt).toNat = some 0xDE :=
  ⟨by decide, Or.inl (by decide), fun h => absurd h (by decide), by decide⟩

theorem witness_StoreOfAllBits : edges.CanAdvance ∧
    edges.DataOpen edges.active (elemAddr (elem82 2) edges.cur.dflt) ∧
    (∀ i < 8, (0xFF#8).getLsbD i = decide (edges.cfg.maskPolarity = .oneUpdates)) :=
  ⟨Or.inl (by decide), fun h => absurd h (by decide), by decide⟩

theorem witness_StoreOverElementWithoutValue :
    edges.DataOpen edges.active (elemAddr (elem82 2) edges.cur.dflt) ∧
    Memory.read edges.cur.dmem (elemAddr (elem82 2) edges.cur.dflt).toNat = none ∧
    (∃ i < 8, (0xFE#8).getLsbD i ≠ decide (edges.cfg.maskPolarity = .oneUpdates)) :=
  ⟨fun h => absurd h (by decide), by decide, by decide⟩

theorem witness_ElementWithoutValue : Memory.read edges.cur.dmem (elemAddr (elem82 2) 0).toNat = none ∧
    edges.DataOpen edges.active (elemAddr (elem82 2) 0) :=
  ⟨by decide, fun h => absurd h (by decide)⟩

/-- `STORE`'s masks: all bits and some bit, under either polarity. -/
theorem witness_store_masks :
    (∀ i < 8, (0xFF#8).getLsbD i = decide (MaskPolarity.oneUpdates = .oneUpdates)) ∧
    (∀ i < 8, (0x00#8).getLsbD i = decide (MaskPolarity.zeroUpdates = .oneUpdates)) ∧
    (∃ i < 8, (0xFE#8).getLsbD i ≠ decide (MaskPolarity.oneUpdates = .oneUpdates)) ∧
    (∃ i < 8, (0x80#8).getLsbD i ≠ decide (MaskPolarity.zeroUpdates = .oneUpdates)) := by
  decide

/-- Program text at entry 0x020 under `refuse_overlap`, with a message for that entry. -/
def overlap : State :=
  { State.setNode { State.reset with cfg := { Config.default with memUnified := .refuseOverlap } } ⟨2, 3⟩
      { node95 with imem := [(0x020, 0)] } with
    sched := [.deliver 0 true], net := [⟨⟨2, 3⟩, .resolved 0x081, 0xFF, false, .host⟩] }

theorem witness_DataAccessToProgramText : overlap.cfg.memUnified = .refuseOverlap ∧
    lookup overlap.cur.imem (elem82 0).address.toNat = some 0 ∧
    lookup (overlap.node ⟨2, 3⟩).imem ((0x081#12).toNat / 4) = some 0 := by decide

theorem witness_DataAccessToProgramText_delivery :
    overlap.MayPass 0 ⟨⟨2, 3⟩, .resolved 0x081, 0xFF, false, .host⟩ ∧ NodeExists overlap.cfg ⟨2, 3⟩ ∧
    (MsgAddr.resolved 0x081).Names (overlap.node ⟨2, 3⟩).dflt 0x081 :=
  ⟨fun h => absurd h (by decide), ⟨by decide, by decide⟩, rfl⟩

theorem test_data_access_to_text_refused : stopOf (step overlap) = some .dataAccessToProgramText := by decide

/-- The conditions of the branches, at their boundaries. -/
theorem witness_branches :
    (withNode (regs12 5 5)).cur.reg 1 = (withNode (regs12 5 5)).cur.reg 2 ∧
    (withNode (regs12 5 6)).cur.reg 1 ≠ (withNode (regs12 5 6)).cur.reg 2 ∧
    (withNode (regs12 0 0)).cur.reg 1 = 0 ∧ (withNode (regs12 0x80 0)).cur.reg 1 ≠ 0 ∧
    condGe .unsigned 0x80 0x7F = true ∧ condGe .signed 0x80 0x7F = false ∧
    condGe .unsigned 0x7F 0x7F = true ∧ condGe .unsigned 0x7E 0x7F = false := by decide

/-- The branches that are not taken: `OFFSET` `2b00` and a next index. -/
theorem witness_branches_not_taken : (goto 0x040).offset = 0b00#2 ∧ (withNode (regs12 5 5)).CanAdvance ∧
    (withNode (regs12 5 6)).CanAdvance ∧ (withNode (regs12 0 0)).CanAdvance ∧
    (withNode (regs12 0x80 0)).CanAdvance :=
  ⟨rfl, Or.inl (by decide), Or.inl (by decide), Or.inl (by decide), Or.inl (by decide)⟩

/-- Taken branches: `JUMP`, a `WAIT` with a trigger pending, a conditional branch of each kind whose condition holds. -/
theorem witness_BranchOffsetField (ctl : BranchCtl) (s : State) :
    TakesBranch ctl (.jump ctl) s ∧
    TakesBranch ctl (.wait ctl) (withNode { node95 with trigPend := 1 }) ∧
    TakesBranch ctl (.beq ctl 1 2) (withNode (regs12 5 5)) ∧
    TakesBranch ctl (.bne ctl 1 2) (withNode (regs12 5 6)) ∧
    TakesBranch ctl (.bge ctl 1 2) (withNode (regs12 0x80 0x7F)) ∧
    TakesBranch ctl (.blt ctl 1 2) (withNode (regs12 0x7F 0x80)) ∧
    TakesBranch ctl (.beqz ctl 1) (withNode (regs12 0 1)) ∧
    TakesBranch ctl (.bnez ctl 1) (withNode (regs12 1 0)) := by
  have cond : ∀ {i n c}, branchCondition (withNode n) i = some (ctl, c) → c = true →
      TakesBranch ctl i (withNode n) := fun h hc => .inr (.inr (h.trans (by rw [hc])))
  exact ⟨.inl rfl, .inr (.inl ⟨rfl, by decide⟩), cond rfl (by decide), cond rfl (by decide),
    cond rfl (by decide), cond rfl (by decide), cond rfl (by decide), cond rfl (by decide)⟩

theorem witness_OrderBranches : (withNode (regs12 0x80 0x7F)).cfg.cmpSigned = .unsigned ∧
    ((withNode (regs12 0x80 0x7F)).cur.reg 2).toNat ≤ ((withNode (regs12 0x80 0x7F)).cur.reg 1).toNat := by
  decide

theorem witness_OffsetOfBranchNotTaken :
    branchCondition (withNode (regs12 0 1)) (.bnez ⟨false, false, 1, 4⟩ 1) =
      some (⟨false, false, 1, 4⟩, false) ∧
    branchCondition (withNode (regs12 0 1)) (.beq ⟨false, false, 3, 4⟩ 1 2) =
      some (⟨false, false, 3, 4⟩, false) := by decide

/-- The same under each setting of `BRANCH_OFFSET_NOT_TAKEN`: refused, `DEFAULT` updated, `DEFAULT` kept (section 4.2). -/
def notTakenUnder (p : OffsetNotTaken) : State :=
  State.setNode { State.reset with cfg := { Config.default with offsetNotTaken := p } } ⟨2, 3⟩ (regs12 0 1)

theorem witness_OffsetOfBranchNotTaken_settings :
    (∀ p ∈ [OffsetNotTaken.refuse, .apply, .skip],
      branchCondition (notTakenUnder p) (.bnez ⟨true, true, 1, 0x040⟩ 1) =
        some (⟨true, true, 1, 0x040⟩, false) ∧ (notTakenUnder p).cur.pc ≠ 1023#10 ∧
      (notTakenUnder p).cfg.offsetNotTaken = p) ∧
    showsStep ((notTakenUnder .apply).withFetchWord 32 0x5F440001) (fun t => (t.cur.pc, t.cur.dflt)) =
      some (1, 1) ∧
    showsStep ((notTakenUnder .skip).withFetchWord 32 0x5F440001) (fun t => (t.cur.pc, t.cur.dflt)) =
      some (1, 0) := by decide

theorem witness_WaitHoldsOrCompletes : (withNode node95).cur.trigPend = 0 ∧
    (withNode { node95 with trigPend := 1 }).cur.trigPend ≠ 0 := by decide

/-- `SEND`: a full network of capacity 1, and coordinates just outside a mesh of 4 by 4. -/
def full : State :=
  { withNode node95 with
    cfg := { Config.default with netCapacity := some 1, meshRows := 4, meshCols := 4 }
    net := [⟨⟨0, 0⟩, .resolved 0, 0, false, .node ⟨2, 3⟩⟩] }

theorem witness_SendAddsOneMessage : (⟨15, 15⟩ : NodeId) ≠ (withNode node95).active ∧
    (withNode node95).cur.pc ≠ 1023#10 ∧ (withNode node95).HasRoom ∧
    NodeExists (withNode node95).cfg ⟨15, 15⟩ :=
  ⟨by decide, by decide, netFull_iff.mp (by decide), by decide, by decide⟩

theorem witness_SendRefusesOrHolds : ¬ full.HasRoom ∧ NodeExists full.cfg ⟨3, 3⟩ ∧
    ¬ NodeExists full.cfg ⟨4, 0⟩ ∧ ¬ NodeExists full.cfg ⟨0, 4⟩ ∧
    (⟨3, 3⟩ : NodeId) ≠ full.active :=
  ⟨fun h => absurd (h 1 rfl) (by decide), ⟨by decide, by decide⟩, fun h => absurd h.1 (by decide),
    fun h => absurd h.2 (by decide), by decide⟩

theorem witness_SymmetricTables : (0xE8#8).getLsbD 1 = (0xE8#8).getLsbD 2 ∧
    (0xE8#8).getLsbD 2 = (0xE8#8).getLsbD 4 ∧ (0xE8#8).getLsbD 3 = (0xE8#8).getLsbD 5 ∧
    (0xE8#8).getLsbD 5 = (0xE8#8).getLsbD 6 := by decide

/-- Tables with one entry, under each order: in lane 4 only `A` is 1, in lane 2 only `B`, in lane 1 only `C`, so entry 1
answers in the lane of the order's last name and entry 4 in the lane of its first (R190). -/
theorem test_truth_orders :
    [TruthOrder.abc, .acb, .bac, .bca, .cab, .cba].map (fun o => truthByte o 0x02 0xF0 0xCC 0xAA) =
      [0x02, 0x04, 0x02, 0x10, 0x04, 0x10] ∧
    [TruthOrder.abc, .acb, .bac, .bca, .cab, .cba].map (fun o => truthByte o 0x10 0xF0 0xCC 0xAA) =
      [0x10, 0x10, 0x04, 0x04, 0x02, 0x02] := by decide

theorem witness_AddAfterSub : (withNode node95).cfg.arithOverflow = .wrap ∧ (2 : Reg) ≠ 3 ∧
    (withNode node95).cur.pc ≠ 1023#10 ∧ shows (.sub 3 1 2) node95 (·.pc) = some 1 := by decide

theorem witness_reductions : (∀ i < 8, (0xFF#8).getLsbD i = true) ∧ (∃ i < 8, (0x7F#8).getLsbD i = false) ∧
    (∃ i < 8, (0x80#8).getLsbD i = true) ∧ (∀ i < 8, (0x00#8).getLsbD i = false) := by
  decide

theorem witness_EndOfTheInstructionStore : (at1023 .refuse).cur.pc = 1023 ∧ (at1023 .wrap).cur.pc = 1023 ∧
    Memory.read (at1023 .refuse).cur.dmem (elemAddr (elem82 2) 0).toNat = some 0x33 ∧
    branchCondition (at1023 .refuse) (.bnez (goto 0) 1) = some (goto 0, false) := by decide

theorem witness_EndOfTheInstructionStore_send : (at1023 .refuse).HasRoom ∧
    NodeExists (at1023 .refuse).cfg ⟨0, 0⟩ :=
  ⟨netFull_iff.mp (by decide), by decide, by decide⟩

/-- A `STORE` of all eight bits to an element without a value. -/
theorem witness_EndOfTheInstructionStore_store :
    Memory.read (at1023 .refuse).cur.dmem (elemAddr ⟨0, 0, 2⟩ 0).toNat = none ∧
    (∀ i < 8, (0xFF#8).getLsbD i = decide ((at1023 .refuse).cfg.maskPolarity = .oneUpdates)) ∧
    stopOf (exec (.store 1 ⟨0, 0, 2⟩ 0xFF) (at1023 .refuse)) = some .fallOffEnd := by decide

theorem witness_EndOfTheInstructionStore_dataOpen :
    (at1023 .refuse).DataOpen (at1023 .refuse).active (elemAddr (elem82 2) (at1023 .refuse).cur.dflt) :=
  fun h => absurd h (by decide)

theorem witness_wrap_at_1023 : (match exec (.add 0 0 0) (at1023 .wrap) with
    | .next t => t.cur.pc == 0
    | .fault _ => false
    | .refused _ => false) = true := by decide

/-- The frames: an instruction of each kind answers a next state. -/
theorem witness_frames : (shows (.load 3 (elem82 3)) node95 (fun _ => ())).isSome = true ∧
    (shows (.store 3 (elem82 3) 0) node95 (fun _ => ())).isSome = true ∧
    (shows (.wait (goto 3)) node95 (fun _ => ())).isSome = true ∧
    (shows (.send 3 ⟨0, 0⟩ (elem82 3) true) node95 (fun _ => ())).isSome = true ∧
    formatOf (.wait (goto 3)) = .branch ∧ targetRegister (.load 3 (elem82 3)) = some 3 := by decide

/-- A placed word is fetched and decoded; a reserved bit, an absent word and a written entry stop the fetch. -/
theorem witness_fetch :
    (State.reset.withFetchWord 32 0xA0C00010).sched = [.node ⟨2, 3⟩] ∧
    (State.reset.withFetchWord 32 0xA0C00010).cfg.memUnified ≠ .unified ∧
    lookup ((State.reset.withFetchWord 32 0xA0C00010).node ⟨2, 3⟩).imem 0 = some 0xA0C00010 ∧
    ((State.reset.withFetchWord 32 0xA0C00010).node ⟨2, 3⟩).idle = false ∧
    (fetch Config.default ((State.reset.withFetchWord 32 0xA0C00010).node ⟨2, 3⟩)).toOption =
      some 0xA0C00010 ∧
    0x01000000#32 &&& rsvdMask (formatOf (decodeFields 0x01000000#32)) ≠ 0#32 ∧
    lookup (State.reset.node ⟨2, 3⟩).imem 0 = none := by decide

theorem witness_nodeExists : NodeExists Config.default ⟨2, 3⟩ ∧ NodeExists Config.default ⟨15, 15⟩ :=
  ⟨⟨by decide, by decide⟩, by decide, by decide⟩

/-- A unified memory: entry 0 holds a word, and a node that has written it. -/
def unified : Config := { Config.default with memUnified := .unified }

theorem witness_UnifiedFetch :
    (∀ k < 4, Memory.read [(0, 0x10), (1, 0), (2, 0xC0), (3, 0xA0)] (4 * 0 + k) =
      some ((0xA0C00010#32).extractLsb' (8 * k) 8)) ∧
    0 ∉ (Node.launch unified).written ∧
    (fetch unified { Node.launch unified with dmem := [(0, 0x10), (1, 0), (2, 0xC0), (3, 0xA0)] }).toOption =
      some 0xA0C00010 ∧
    0 ∈ ((Node.launch unified).putElem 3 0).written := by decide

/-- A unified entry whose element 2 has no value. -/
def torn : Node := { Node.launch unified with dmem := [(0, 0x10), (1, 0), (3, 0xA0)] }

/-- The refusals of a fetch, each from a state that meets its clause (section 2.2, R43, R74). -/
theorem witness_FetchRefusals :
    Memory.read torn.dmem (4 * 0 + 2) = none ∧ 0 ∉ torn.written ∧
    stopOf (step (State.setNode { State.reset with cfg := unified } ⟨2, 3⟩ torn)) =
      some (.unwrittenRead (.instruction 0)) ∧
    stopOf (step (State.reset.withFetchWord 32 0x01000000)) = some (.reservedNonZero 0x01000000) ∧
    stopOf (step State.reset) = some (.unwrittenRead (.instruction 0)) ∧
    stopOf (step (State.setNode { State.reset with cfg := unified } ⟨2, 3⟩
      ((Node.launch unified).putElem 3 0))) = some .fetchOfWrittenEntry := by decide

theorem witness_IdleNode : ((withNode { node95 with idle := true }).node ⟨2, 3⟩).idle = true ∧
    ((withNode { node95 with idle := true }).node ⟨2, 3⟩).trigPend = 0 ∧
    ((withNode { node95 with idle := true, trigPend := 1 }).node ⟨2, 3⟩).trigPend ≠ 0 ∧
    (withNode node95).sched = [.node ⟨2, 3⟩] := by decide

/-- A node at the word it runs next: a `WAIT` counts as holding, an `ADD` as running (R242). -/
def atWord (w : Word) : Node := { node95 with imem := [(0, w)] }

theorem witness_Delivery : (delivering node95 false).MayPass 0 ⟨⟨2, 3⟩, .resolved 0x081, 0xFF, false, .node ⟨0, 0⟩⟩ ∧
    NodeExists (delivering node95 true).cfg ⟨2, 3⟩ ∧ (MsgAddr.resolved 0x081).Names 0 0x081 :=
  ⟨fun h => absurd h (by decide), ⟨by decide, by decide⟩, rfl⟩

/-- Running at an `ADD`; not running at a `WAIT`, nor when idle. -/
theorem witness_IsRunning : (withNode (atWord 0xA0000000)).IsRunning ⟨2, 3⟩ ∧
    ¬ (withNode (atWord 0x42001000)).IsRunning ⟨2, 3⟩ ∧
    ¬ (withNode { atWord 0xA0000000 with idle := true }).IsRunning ⟨2, 3⟩ :=
  ⟨running_iff.mp (by decide), fun h => absurd (running_iff.mpr h) (by decide),
    fun h => absurd (running_iff.mpr h) (by decide)⟩

/-- A deferred element, `SLOT` = 1, in the inverse of the default (R171): 0x083 in a target whose `DEFAULT` is 0, 0x082
in one whose `DEFAULT` is 1. -/
theorem witness_Delivery_deferred : (MsgAddr.deferred ⟨0x020, 1, 1⟩).Names 0 0x083 ∧
    (MsgAddr.deferred ⟨0x020, 1, 1⟩).Names 1 0x082 := by
  constructor <;> unfold MsgAddr.Names <;> decide

/-- The target's `DEFAULT` at the delivery decides under `SEND_OFFSET_RESOLVE = target`. -/
theorem test_delivery_deferred : showsStep
    { State.setNode { State.reset with cfg := { Config.default with offsetResolve := .target } } ⟨2, 3⟩
        { node95 with dflt := 1 } with
      sched := [.deliver 0 true], net := [⟨⟨2, 3⟩, .deferred ⟨0x020, 1, 1⟩, 0xFF, false, .node ⟨0, 0⟩⟩] }
    (fun t => ((t.node ⟨2, 3⟩).dmem, (t.node ⟨2, 3⟩).written)) =
    some ([(0x80, 0x11), (0x81, 0x22), (0x82, 0xFF), (0x83, 0x44)], [0x020]) := by decide

theorem witness_Delivery_dataOpen : (delivering node95 false).DataOpen ⟨2, 3⟩ 0x081 :=
  fun h => absurd h (by decide)

/-- Under each setting of `TRIG_WHILE_RUNNING`, a delivery of a trigger to a running node. -/
def busy (p : TrigWhileRunning) (keep : Bool) : State :=
  { State.setNode { State.reset with cfg := { Config.default with trigWhileRunning := p } } ⟨2, 3⟩
      (atWord 0xA0000000) with
    sched := [.deliver 0 keep], net := [⟨⟨2, 3⟩, .resolved 0x081, 0xFF, true, .node ⟨0, 0⟩⟩] }

/-- Section 8.2: what the settings of `TRIG_WHILE_RUNNING` give. -/
theorem test_trigger_while_running :
    showsStep (busy .latch false) (fun t => (t.node ⟨2, 3⟩).trigPend) = some 1 ∧
    showsStep (busy .drop true) (fun t => (t.node ⟨2, 3⟩).trigPend) = some 0 ∧
    showsStep (busy .either false) (fun t => (t.node ⟨2, 3⟩).trigPend) = some 0 ∧
    showsStep (busy .either true) (fun t => (t.node ⟨2, 3⟩).trigPend) = some 1 ∧
    stopOf (step (busy .refuse true)) = some .triggerWhileRunning := by decide

/-- Two messages of one sender to one target, the later one chosen. -/
def twoInFlight : State :=
  { State.reset with
    cfg := { Config.default with netOrder := .pairFifo }
    sched := [.deliver 1 true]
    net := [⟨⟨0, 1⟩, .resolved 0, 1, false, .node ⟨2, 3⟩⟩, ⟨⟨0, 1⟩, .resolved 0, 2, false, .node ⟨2, 3⟩⟩] }

/-- Section 9: `pair_fifo` does not deliver the later message first; `any` does. -/
theorem test_pair_fifo : showsStep twoInFlight (·.net.length) = some 2 ∧
    showsStep { twoInFlight with cfg := Config.default } (·.net.length) = some 1 := by decide

/-- Under `pair_fifo` the first message passes, and so does a later one of another sender (R69). -/
theorem witness_MayPass : twoInFlight.MayPass 0 ⟨⟨0, 1⟩, .resolved 0, 1, false, .node ⟨2, 3⟩⟩ ∧
    twoInFlight.MayPass 1 ⟨⟨0, 1⟩, .resolved 0, 2, false, .node ⟨5, 5⟩⟩ ∧
    showsStep { twoInFlight with sched := [.deliver 0 true] } (·.net.length) = some 1 :=
  ⟨mayDeliver_iff.mp (by decide), mayDeliver_iff.mp (by decide), by decide⟩

theorem witness_PairFifo : twoInFlight.cfg.netOrder = .pairFifo ∧
    twoInFlight.net[0]?.map (·.sender) = twoInFlight.net[1]?.map (·.sender) ∧
    twoInFlight.net[0]?.map (·.target) = twoInFlight.net[1]?.map (·.target) ∧
    twoInFlight.sched = [.deliver 1 true] ∧ twoInFlight.net.length = 2 := by decide

/-- A machine whose host is about to add a message. -/
def hosted (b : Bool) : State :=
  { State.reset with
    cfg := { Config.default with hostMoves := b }
    sched := [.inject ⟨⟨0, 1⟩, .resolved 5, 1, true, .host⟩] }

theorem witness_HostMove : NodeExists (hosted true).cfg ⟨0, 1⟩ ∧ (hosted true).HasRoom ∧
    (MsgAddr.resolved 5).Fits (hosted true).cfg.offsetResolve ∧ (MsgAddr.deferred ⟨5, 0, 0⟩).Fits .target ∧
    showsStep (hosted true) (·.net.length) = some 1 ∧ showsStep (hosted false) (·.net.length) = some 0 :=
  ⟨⟨by decide, by decide⟩, netFull_iff.mp (by decide),
    hasForm_iff.mp (by decide), hasForm_iff.mp (by decide), by decide, by decide⟩

/-- Steps that answer a next state: one that writes memory, one that clears a trigger, one that sets one. -/
theorem witness_steps :
    showsStep ((withNode { node95 with trigPend := 1 }).withFetchWord 32 0x20C20800)
      (fun t => (t.node ⟨2, 3⟩).dmem) = some [(0x80, 0x11), (0x81, 0x22), (0x82, 0x33), (0x83, 0x44)] ∧
    showsStep ((withNode (node95.setReg 0 0x11)).withFetchWord 32 0x20C20FF8)
      (fun t => Memory.read (t.node ⟨2, 3⟩).dmem 0x83) = some (some 0x11) ∧
    showsStep ((withNode { node95 with trigPend := 1 }).withFetchWord 32 0x42001000)
      (fun t => (t.node ⟨2, 3⟩).trigPend) = some 0 ∧
    (delivering node95 true).sched.head? ≠ some (.node ⟨2, 3⟩) := by decide

theorem witness_inv : State.reset.inv = true ∧ (withNode node95).inv = true ∧ twoInFlight.inv = true ∧
    (withNode { node95 with trigPend := 1 }).inv = true ∧ full.cfg.valid = true ∧
    (showsStep (hosted true) State.inv) = some true := by decide

/-- A mesh of one node. -/
def oneNode (n : Node) : State :=
  State.setNode { State.reset with cfg := { Config.default with meshRows := 1, meshCols := 1 } } ⟨0, 0⟩ n

theorem only_node {c : Config} (hr : c.meshRows = 1) (hc : c.meshCols = 1) {id : NodeId}
    (h : NodeExists c id) : id = ⟨0, 0⟩ := by
  obtain ⟨r, k⟩ := id
  simp [NodeExists, hr, hc] at h
  obtain ⟨h1, h2⟩ := h
  congr
  · exact BitVec.eq_of_toNat_eq h1
  · exact BitVec.eq_of_toNat_eq h2

/-- One node, idle with no trigger pending, is a final state. -/
theorem witness_Final : (oneNode { node95 with idle := true }).Final := by
  refine ⟨fun id h => ?_, rfl⟩
  rw [only_node rfl rfl h]
  decide

/-- One node at a `WAIT` is a quiescent state and not idle. -/
theorem witness_Quiescent : (oneNode (atWord 0x42001000)).Quiescent ∧
    ((oneNode (atWord 0x42001000)).node ⟨0, 0⟩).idle = false := by
  refine ⟨⟨fun id h => ?_, rfl⟩, by decide⟩
  rw [only_node rfl rfl h]
  decide

/-- The clauses of `AnAgentThatDoesNotHoldHasAStep`: nodes that do not hold (at an `ADD`, at a `JUMP` to its own index, idle
with a trigger pending), and nodes that do (at a `WAIT`; idle). -/
theorem witness_nodeHolds : nodeHolds (withNode (atWord 0xA0000000)) ⟨2, 3⟩ = false ∧
    nodeHolds (withNode (atWord 0x40000000)) ⟨2, 3⟩ = false ∧
    nodeHolds (withNode { node95 with idle := true, trigPend := 1 }) ⟨2, 3⟩ = false ∧
    nodeHolds (withNode (atWord 0x42001000)) ⟨2, 3⟩ = true ∧
    nodeHolds (withNode { node95 with idle := true }) ⟨2, 3⟩ = true := by decide

/-- R144: a `JUMP` to its own index is an endless loop, which changes neither its node nor the network. -/
theorem test_jump_to_itself : showsStep (withNode (atWord 0x40000000))
    (fun t => (t.node ⟨2, 3⟩ == atWord 0x40000000, t.net)) = some (true, []) := by decide

theorem witness_waiting : (∀ id, NodeExists (oneNode (atWord 0x42001000)).cfg id →
      ((oneNode (atWord 0x42001000)).node id).trigPend = 0 ∧
      (((oneNode (atWord 0x42001000)).node id).idle = true ∨
        ∃ ctl, fetchInstr (oneNode (atWord 0x42001000)).cfg ((oneNode (atWord 0x42001000)).node id) =
          .ok (.wait ctl))) ∧
    ((oneNode (atWord 0x42001000)).node ⟨0, 0⟩).idle = false ∧ (oneNode (atWord 0x42001000)).net = [] := by
  refine ⟨fun id h => ?_, by decide, rfl⟩
  rw [only_node rfl rfl h]
  exact ⟨by decide, .inr ⟨goto 1, by rfl⟩⟩

theorem witness_delivery_of_the_oldest : (delivering node95 true).sched.head? = some (.deliver 0 true) ∧
    (delivering node95 true).net ≠ [] := by decide

/-- One node at a `JUMP` to its own index, awake. -/
def awake : State := { oneNode { atWord 0x40000000 with markAddr := 0 } with active := ⟨0, 0⟩ }

/-- The same node idle, with a trigger pending. -/
def asleep : State :=
  oneNode { atWord 0x40000000 with markAddr := 0, idle := true, trigPend := 1 }

/-- A run: the node wakes at its first step and loops from then on; between its steps the network has its turn. -/
def looping (n : Nat) : State :=
  { (match n with
      | 0 => asleep
      | _ + 1 => awake) with
    sched := if n % 2 = 0 then [.node ⟨0, 0⟩, .deliver 0 true] else [.deliver 0 true, .node ⟨0, 0⟩]
    ticks := n }

theorem looping_steps (n : Nat) : step (looping n) = .next (looping (n + 1)) := by
  cases n with
  | zero => rfl
  | succ k =>
    rcases Nat.mod_two_eq_zero_or_one (k + 1) with h | h
    · have h' : (k + 1 + 1) % 2 = 1 := by omega
      simp only [looping, h, h', if_true, Nat.one_ne_zero, if_false]
      with_unfolding_all rfl
    · have h' : (k + 1 + 1) % 2 = 0 := by omega
      simp only [looping, h, h', if_true, Nat.one_ne_zero, if_false]
      with_unfolding_all rfl

theorem looping_moves (n : Nat) (h : n % 2 = 0) : (looping n).NodeMoves ⟨0, 0⟩ := by
  simp [State.NodeMoves, looping, h]

/-- The hypotheses of both clauses of `RunsInWhichEveryAgentMovesAreWeaklyFair`. -/
theorem witness_weaklyFair : (∀ n, step (looping n) = .next (looping (n + 1))) ∧
    (looping 0).EveryAgentMoves ∧ IsRun looping ∧ WeaklyFair looping ∧
    NodeExists (looping 0).cfg ⟨0, 0⟩ ∧ ((looping 0).node ⟨0, 0⟩).idle = true ∧
    ((looping 0).node ⟨0, 0⟩).trigPend ≠ 0 := by
  refine ⟨looping_steps, ⟨fun id h => ?_, true, by decide⟩, fun n => ⟨_, looping_steps n⟩,
    ⟨fun n id h => ⟨2 * n, by omega, ?_⟩, fun n m h => ?_⟩, ⟨by decide, by decide⟩, by decide, by decide⟩
  · rw [only_node rfl rfl h]
    decide
  · rw [only_node (by cases n <;> rfl) (by cases n <;> rfl) (h n (Nat.le_refl n)).1]
    exact looping_moves _ (by omega)
  · cases n <;> cases h

/-- A list with the node alone, as after reset, gives the network no turn: not every agent moves. -/
theorem test_reset_is_not_fair : ¬ State.reset.EveryAgentMoves := by
  rintro ⟨_, keep, h⟩
  cases keep <;> revert h <;> decide

theorem witness_UseOfDefault : (0b01#2 : BitVec 2) = 0b00#2 ∨ (0b01#2 : BitVec 2) = 0b01#2 := by decide

theorem witness_ElementAddress : (elemAddr ⟨0x020, 1, 0⟩ 0).toNat = 0x082 ∧
    (elemAddr ⟨0x020, 1, 1⟩ 0).toNat = 0x083 ∧ (elemAddr ⟨0x3FF, 1, 3⟩ 0).toNat = 0xFFF := by decide

end Sys2Proof.Tests
end

section
/-! PROOFS. The element address (spec/20_memory.md): R52's sub-slot selector and R50's address as bit fields. -/

namespace Sys2Proof.Machine

/-- R52's formula on bits: a set `OFFSET[1]` selects `OFFSET[0]`, a clear one `OFFSET[0]` xor `DEFAULT`. -/
theorem subSel_eq_ite_ofBool (o : BitVec 2) (d : Bit) :
    subSel o d = if o[1] = true then BitVec.ofBool o[0] else BitVec.ofBool (o[0] ^^ d[0]) := by
  have hd : BitVec.ofBool d[0] = d := by
    rw [← BitVec.getLsbD_eq_getElem, ← BitVec.setWidth_one, BitVec.setWidth_eq]
  rw [← BitVec.ofBool_xor_ofBool, hd]
  rfl

theorem elemAddr_extract_address (r : ElemRef) (d : Bit) :
    (elemAddr r d).extractLsb' 2 10 = r.address :=
  calc (elemAddr r d).extractLsb' 2 10
      = (r.address ++ r.slot).extractLsb' 1 10 := BitVec.extractLsb'_append_eq_of_le (by decide)
    _ = r.address := BitVec.extractLsb'_append_eq_left

theorem elemAddr_extract_slot (r : ElemRef) (d : Bit) :
    (elemAddr r d).extractLsb' 1 1 = r.slot :=
  calc (elemAddr r d).extractLsb' 1 1
      = (r.address ++ r.slot).extractLsb' 0 1 := BitVec.extractLsb'_append_eq_of_le (by decide)
    _ = r.slot := BitVec.extractLsb'_append_eq_right

theorem elemAddr_extract_sub (r : ElemRef) (d : Bit) :
    (elemAddr r d).extractLsb' 0 1 = subSel r.offset d :=
  BitVec.extractLsb'_append_eq_right

/-- Settles O10: the formula for every selector and `DEFAULT`, then R52's eight rows. -/
theorem subSlotSelector : Obligations.SubSlotSelector := by
  unfold Obligations.SubSlotSelector
  exact ⟨subSel_eq_ite_ofBool, by decide⟩

/-- Settles O11: the number, then each field read back from the concatenation. -/
theorem elementAddressFormula : Obligations.ElementAddressFormula := by
  unfold Obligations.ElementAddressFormula
  exact fun r d => ⟨elemAddr_toNat r d, elemAddr_extract_address r d, elemAddr_extract_slot r d,
    elemAddr_extract_sub r d⟩

end Sys2Proof.Machine
end

section
/-! PROOFS. The format of a word (spec/30_encoding.md rule R81): its major opcode alone fixes it. -/

namespace Sys2Proof.Machine

/-- R81's table: the format of each value of `w[31:29]`. -/
def formatOfOpcode (op : BitVec 3) : Format :=
  match op with
  | 0b000#3 => .load
  | 0b001#3 => .store
  | 0b010#3 => .branch
  | 0b011#3 => .send
  | 0b100#3 => .truth
  | 0b101#3 => .arith
  | _ => .shufl

theorem formatOfOpcode_eq_shufl_iff :
    ∀ op : BitVec 3, formatOfOpcode op = .shufl ↔ op.extractLsb' 1 2 = 0b11#2 := by
  decide

/-- `w[31:30]` is the upper two bits of the major opcode. -/
theorem opcode_extract_upper (w : Word) :
    (w.extractLsb' 29 3).extractLsb' 1 2 = w.extractLsb' 30 2 := by
  ext i hi
  have h : 1 + i < 3 := by omega
  simp [h, ← Nat.add_assoc]

/-- Bit 29 is both the lowest bit of the major opcode and `B7[2]` (R81). -/
theorem selectors_b7_bit_two (w : Word) :
    (decodeSelectors w).b7.getLsbD 2 = (w.extractLsb' 29 3).getLsbD 0 := by
  simp [decodeSelectors]

theorem formatOf_decodeBranch (w : Word) : formatOf (decodeBranch w) = .branch := by
  unfold decodeBranch
  split <;> rfl

theorem formatOf_decodeArith (w : Word) : formatOf (decodeArith w) = .arith := by
  unfold decodeArith
  split <;> rfl

theorem decodeFields_of_shufl {w : Word} (h : w.extractLsb' 30 2 = 0b11#2) :
    decodeFields w = .shufl (fieldTgt w) (fieldSrcA w) (decodeSelectors w) :=
  if_pos h

theorem opcode_cases : ∀ op : BitVec 3,
    op.extractLsb' 1 2 = 0b11#2 ∨ op = 0b000#3 ∨ op = 0b001#3 ∨ op = 0b010#3 ∨ op = 0b011#3 ∨
      op = 0b100#3 ∨ op = 0b101#3 := by
  decide

/-- The decoder follows R81's table on every word. -/
theorem formatOf_decodeFields (w : Word) :
    formatOf (decodeFields w) = formatOfOpcode (w.extractLsb' 29 3) := by
  have hupper := opcode_extract_upper w
  by_cases hs : w.extractLsb' 30 2 = 0b11#2
  · rw [decodeFields_of_shufl hs, (formatOfOpcode_eq_shufl_iff _).mpr (hupper.trans hs)]
    rfl
  · rw [decodeFields, if_neg hs]
    split
    case h_1 hop => rw [hop]; rfl
    case h_2 hop => rw [hop]; rfl
    case h_3 hop => rw [hop]; exact formatOf_decodeBranch w
    case h_4 hop => rw [hop]; rfl
    case h_5 hop => rw [hop]; rfl
    case h_6 h0 h1 h2 h3 h4 =>
      have h5 : w.extractLsb' 29 3 = 0b101#3 := by
        have hcases := opcode_cases (w.extractLsb' 29 3)
        rw [hupper] at hcases
        tauto
      rw [h5]
      exact formatOf_decodeArith w

/-- A word with `w[31:30]` = 0b11 is a `SHUFL` whose `B7[2]` is the lowest bit of the major opcode. -/
theorem decodeFields_shufl_b7 {w : Word} {op : BitVec 3} (hop : w.extractLsb' 29 3 = op)
    (hs : op.extractLsb' 1 2 = 0b11#2) :
    ∃ tgt src sel, decodeFields w = .shufl tgt src sel ∧ sel.b7.getLsbD 2 = op.getLsbD 0 := by
  subst hop
  exact ⟨_, _, _, decodeFields_of_shufl ((opcode_extract_upper w).symm.trans hs),
    selectors_b7_bit_two w⟩

/-- Settles O4: six opcodes and the upper two bits read off the table, then bit 29 of the two `SHUFL` opcodes. -/
theorem majorOpcodeSelectsFormat : Obligations.MajorOpcodeSelectsFormat := by
  unfold Obligations.MajorOpcodeSelectsFormat
  intro w
  have hformat (op : BitVec 3) (hop : w.extractLsb' 29 3 = op) :
      formatOf (decodeFields w) = formatOfOpcode op := by
    rw [formatOf_decodeFields, hop]
  have hshufl : w.extractLsb' 30 2 = 0b11#2 ↔ formatOf (decodeFields w) = .shufl := by
    rw [formatOf_decodeFields, formatOfOpcode_eq_shufl_iff, opcode_extract_upper]
  exact ⟨hformat _, hformat _, hformat _, hformat _, hformat _, hformat _, hshufl,
    fun hop => decodeFields_shufl_b7 hop rfl, fun hop => decodeFields_shufl_b7 hop rfl⟩

end Sys2Proof.Machine
end

section
/-! PROOFS. The operands of `TRUTH` (spec/30_encoding.md rule R95): which field gives the third input. -/

namespace Sys2Proof.Machine

@[simp] theorem thirdOperand_imm (n : Node) (c : Reg) (imm : Byte) :
    thirdOperand n c true imm = imm := rfl

@[simp] theorem thirdOperand_reg (n : Node) (c : Reg) (imm : Byte) :
    thirdOperand n c false imm = n.reg c := rfl

/-- `TRUTH` depends on `SRC_C`, `SI` and `IMM` through the third operand alone. -/
theorem exec_truth (tgt a b c : Reg) (si : Bool) (imm table : Byte) (s : State) :
    exec (.truth tgt a b c si imm table) s = writeAndRetire s tgt
      (truthByte s.cfg.truthOrder table (s.cur.reg a) (s.cur.reg b)
        (thirdOperand s.cur c si imm)) := rfl

theorem exec_truth_completes {s : State} (h : s.CanAdvance) (tgt a b c : Reg) (si : Bool)
    (imm table : Byte) :
    ∃ t, exec (.truth tgt a b c si imm table) s = .next t ∧ WritesRegister tgt
      (truthByte s.cfg.truthOrder table (s.cur.reg a) (s.cur.reg b)
        (thirdOperand s.cur c si imm)) s t :=
  writeAndRetire_completes h tgt _

/-- Settles O31: `TRUTH` completes with the lookup of the third operand, which is `IMM` or register `SRC_C` by `SI`
and never reads the other field. -/
theorem truthThirdInput : Obligations.TruthThirdInput := by
  unfold Obligations.TruthThirdInput
  intro s tgt a b c imm table hadv
  obtain ⟨tImm, hImm, hregImm, _⟩ := exec_truth_completes hadv tgt a b c true imm table
  obtain ⟨tReg, hReg, hregReg, _⟩ := exec_truth_completes hadv tgt a b c false imm table
  refine ⟨⟨tImm, hImm, hregImm⟩, ⟨tReg, hReg, hregReg⟩, fun c' => ?_, fun imm' => ?_⟩
  · simp only [exec_truth, thirdOperand_imm]
  · simp only [exec_truth, thirdOperand_reg]

end Sys2Proof.Machine
end

section
/-! PROOFS. The use of `DEFAULT` (spec/40_load_store.md rule R123): which element addresses depend on it, and which
instructions leave it. -/

namespace Sys2Proof.Machine

/-- R52 with `OFFSET[1]` clear: the other `DEFAULT` selects the other sub-slot. -/
theorem subSel_not_of_usesDefault {o : BitVec 2} (h : o = 0b00#2 ∨ o = 0b01#2) (d : Bit) :
    subSel o (~~~d) = subSel o d ^^^ 1#1 := by
  revert d
  rcases h with rfl | rfl <;> decide

/-- R52 with `OFFSET[1]` set: the sub-slot is a constant. -/
theorem subSel_eq_of_ignoresDefault {o : BitVec 2} (h : o = 0b10#2 ∨ o = 0b11#2) (d d' : Bit) :
    subSel o d = subSel o d' := by
  rcases h with rfl | rfl <;> rfl

/-- Flipping the lowest bit of an element address flips its sub-slot (R50). -/
theorem elemAddr_xor_one (r : ElemRef) (d : Bit) :
    elemAddr r d ^^^ 1#12 = r.address ++ r.slot ++ (subSel r.offset d ^^^ 1#1) :=
  calc elemAddr r d ^^^ 1#12
      = (r.address ++ r.slot ++ subSel r.offset d) ^^^ (0#11 ++ 1#1) := rfl
    _ = (r.address ++ r.slot ^^^ 0#11) ++ (subSel r.offset d ^^^ 1#1) := BitVec.xor_append
    _ = r.address ++ r.slot ++ (subSel r.offset d ^^^ 1#1) := by rw [BitVec.xor_zero]

/-- An instruction with branch fields has the format `BRANCH` (R84). -/
theorem formatOf_of_branchFields {i : Instr} {ctl : BranchCtl} (h : branchFields i = some ctl) :
    formatOf i = .branch := by
  cases i <;> simp [branchFields] at h <;> rfl

/-- Of the ways an instruction can go, only those of a branch write `DEFAULT`. -/
theorem exec_dflt_of_not_branch {i : Instr} {s t : State} (h : ExecCases i s t)
    (hb : formatOf i ≠ .branch) : t.cur.dflt = s.cur.dflt := by
  cases h with
  | register tgt v hi hc ht => simp [ht]
  | store src r mask v hi hc ht => simp [ht]
  | taken ctl hi hw hn ht => exact absurd (formatOf_of_branchFields hi) hb
  | notTaken ctl d hi hd hc ht =>
    obtain ⟨hfields, _⟩ := branchFields_of_condition hi
    exact absurd (formatOf_of_branchFields hfields) hb
  | waits ctl hi hp ht => rw [ht]
  | resumes ctl hi hp ht => exact absurd (hi ▸ rfl) hb
  | sendHolds src dest r trig hi hd hm hf ht => rw [ht]
  | sends src dest r trig hi hd hm hf hc ht =>
    rw [ht, ← post_active s (sendMessage src dest r trig s), cur_setNode_active]

/-- Settles O12: the two modes that follow `DEFAULT` and the two that do not, read off the sub-slot, then the frame of
every instruction that is no `BRANCH`. -/
theorem useOfDefault : Obligations.UseOfDefault := by
  unfold Obligations.UseOfDefault
  refine ⟨fun r d h => ?_, fun r d d' h => ?_, fun i s t h hb => ?_⟩
  · rw [elemAddr_xor_one, ← subSel_not_of_usesDefault h, elemAddr]
  · rw [elemAddr, elemAddr, subSel_eq_of_ignoresDefault h d d']
  · exact exec_dflt_of_not_branch (exec_next h) hb

end Sys2Proof.Machine
end

section
/-! PROOFS. The rows of the opcode table (spec/30_encoding.md rules R81, R93, R94, R103): the instruction a word with
the fixed bits of a row decodes to. -/

namespace Sys2Proof.Machine

/-- The upper two bits of the major opcode, as the decoder tests them. -/
theorem extract_upper_of_opcode {w : Word} {op : BitVec 3} (h : w.extractLsb' 29 3 = op) :
    w.extractLsb' 30 2 = op.extractLsb' 1 2 :=
  h ▸ (opcode_extract_upper w).symm

section Rows
variable {w : Word}

theorem decodeFields_of_load (h : w.extractLsb' 29 3 = 0b000#3) :
    decodeFields w = .load (fieldTgt w) (decodeElem w) := by
  simp [decodeFields, extract_upper_of_opcode h, h]

theorem decodeFields_of_store (h : w.extractLsb' 29 3 = 0b001#3) :
    decodeFields w = .store (fieldSrcA w) (decodeElem w) (w.extractLsb' 3 8) := by
  simp [decodeFields, extract_upper_of_opcode h, h]

theorem decodeFields_of_branch (h : w.extractLsb' 29 3 = 0b010#3) :
    decodeFields w = decodeBranch w := by
  simp [decodeFields, extract_upper_of_opcode h, h]

theorem decodeFields_of_send (h : w.extractLsb' 29 3 = 0b011#3) :
    decodeFields w = .send (fieldSrcA w) (decodeNodeId w) (decodeElem w)
      (w.extractLsb' 24 1 == 1#1) := by
  simp [decodeFields, extract_upper_of_opcode h, h]

theorem decodeFields_of_truth (h : w.extractLsb' 29 3 = 0b100#3) :
    decodeFields w = decodeTruth w := by
  simp [decodeFields, extract_upper_of_opcode h, h]

theorem decodeFields_of_arith (h : w.extractLsb' 29 3 = 0b101#3) :
    decodeFields w = decodeArith w := by
  simp [decodeFields, extract_upper_of_opcode h, h]

end Rows

/-- `COMP` = 0b111 is the arm of the decoder that names no value. -/
theorem decodeBranch_of_bnez {w : Word} (h : w.extractLsb' 25 3 = 0b111#3) :
    decodeBranch w = .bnez (decodeCtl w) (fieldSrcA w) := by
  simp only [decodeBranch, h]
  rfl

/-- `OP` = 0b11 is the arm of the decoder that names no value. -/
theorem decodeArith_of_orr {w : Word} (h : w.extractLsb' 22 2 = 0b11#2) :
    decodeArith w = .orr (fieldTgt w) (fieldSrcA w) := by
  simp only [decodeArith, h]
  rfl

/-- The fixed bits of a word and the instruction its row decodes to. -/
inductive RowCases (w : Word) : Prop
  | load (hop : w.extractLsb' 29 3 = 0b000#3)
      (hi : decodeFields w = .load (fieldTgt w) (decodeElem w))
  | store (hop : w.extractLsb' 29 3 = 0b001#3)
      (hi : decodeFields w = .store (fieldSrcA w) (decodeElem w) (w.extractLsb' 3 8))
  | jump (hop : w.extractLsb' 29 3 = 0b010#3) (hc : w.extractLsb' 25 3 = 0b000#3)
      (hi : decodeFields w = .jump (decodeCtl w))
  | wait (hop : w.extractLsb' 29 3 = 0b010#3) (hc : w.extractLsb' 25 3 = 0b001#3)
      (hi : decodeFields w = .wait (decodeCtl w))
  | beq (hop : w.extractLsb' 29 3 = 0b010#3) (hc : w.extractLsb' 25 3 = 0b010#3)
      (hi : decodeFields w = .beq (decodeCtl w) (fieldSrcA w) (fieldSrcB w))
  | bne (hop : w.extractLsb' 29 3 = 0b010#3) (hc : w.extractLsb' 25 3 = 0b011#3)
      (hi : decodeFields w = .bne (decodeCtl w) (fieldSrcA w) (fieldSrcB w))
  | bge (hop : w.extractLsb' 29 3 = 0b010#3) (hc : w.extractLsb' 25 3 = 0b100#3)
      (hi : decodeFields w = .bge (decodeCtl w) (fieldSrcA w) (fieldSrcB w))
  | blt (hop : w.extractLsb' 29 3 = 0b010#3) (hc : w.extractLsb' 25 3 = 0b101#3)
      (hi : decodeFields w = .blt (decodeCtl w) (fieldSrcA w) (fieldSrcB w))
  | beqz (hop : w.extractLsb' 29 3 = 0b010#3) (hc : w.extractLsb' 25 3 = 0b110#3)
      (hi : decodeFields w = .beqz (decodeCtl w) (fieldSrcA w))
  | bnez (hop : w.extractLsb' 29 3 = 0b010#3) (hc : w.extractLsb' 25 3 = 0b111#3)
      (hi : decodeFields w = .bnez (decodeCtl w) (fieldSrcA w))
  | send (hop : w.extractLsb' 29 3 = 0b011#3)
      (hi : decodeFields w = .send (fieldSrcA w) (decodeNodeId w) (decodeElem w)
        (w.extractLsb' 24 1 == 1#1))
  | truth (hop : w.extractLsb' 29 3 = 0b100#3) (hi : decodeFields w = decodeTruth w)
  | add (hop : w.extractLsb' 29 3 = 0b101#3) (hc : w.extractLsb' 22 2 = 0b00#2)
      (hi : decodeFields w = .add (fieldTgt w) (fieldSrcA w) (fieldSrcB w))
  | sub (hop : w.extractLsb' 29 3 = 0b101#3) (hc : w.extractLsb' 22 2 = 0b01#2)
      (hi : decodeFields w = .sub (fieldTgt w) (fieldSrcA w) (fieldSrcB w))
  | andr (hop : w.extractLsb' 29 3 = 0b101#3) (hc : w.extractLsb' 22 2 = 0b10#2)
      (hi : decodeFields w = .andr (fieldTgt w) (fieldSrcA w))
  | orr (hop : w.extractLsb' 29 3 = 0b101#3) (hc : w.extractLsb' 22 2 = 0b11#2)
      (hi : decodeFields w = .orr (fieldTgt w) (fieldSrcA w))
  | shufl (hop : w.extractLsb' 30 2 = 0b11#2)
      (hi : decodeFields w = .shufl (fieldTgt w) (fieldSrcA w) (decodeSelectors w))

theorem comp_cases : ∀ c : BitVec 3, c = 0b000#3 ∨ c = 0b001#3 ∨ c = 0b010#3 ∨ c = 0b011#3 ∨
    c = 0b100#3 ∨ c = 0b101#3 ∨ c = 0b110#3 ∨ c = 0b111#3 := by
  decide

theorem op_cases : ∀ o : BitVec 2, o = 0b00#2 ∨ o = 0b01#2 ∨ o = 0b10#2 ∨ o = 0b11#2 := by
  decide

/-- A `BRANCH` word has one of eight rows, by `COMP` (R93). -/
theorem rowCases_of_branch {w : Word} (hop : w.extractLsb' 29 3 = 0b010#3) : RowCases w := by
  have hi := decodeFields_of_branch hop
  rcases comp_cases (w.extractLsb' 25 3) with hc | hc | hc | hc | hc | hc | hc | hc <;>
    simp only [decodeBranch, hc] at hi
  · exact .jump hop hc hi
  · exact .wait hop hc hi
  · exact .beq hop hc hi
  · exact .bne hop hc hi
  · exact .bge hop hc hi
  · exact .blt hop hc hi
  · exact .beqz hop hc hi
  · exact .bnez hop hc hi

/-- An `ARITH` word has one of four rows, by `OP` (R94). -/
theorem rowCases_of_arith {w : Word} (hop : w.extractLsb' 29 3 = 0b101#3) : RowCases w := by
  have hi := decodeFields_of_arith hop
  rcases op_cases (w.extractLsb' 22 2) with hc | hc | hc | hc <;> simp only [decodeArith, hc] at hi
  · exact .add hop hc hi
  · exact .sub hop hc hi
  · exact .andr hop hc hi
  · exact .orr hop hc hi

/-- Every word has one of the 17 rows. -/
theorem rowCases (w : Word) : RowCases w := by
  rcases opcode_cases (w.extractLsb' 29 3) with hop | hop | hop | hop | hop | hop | hop
  · rw [opcode_extract_upper] at hop
    exact .shufl hop (decodeFields_of_shufl hop)
  · exact .load hop (decodeFields_of_load hop)
  · exact .store hop (decodeFields_of_store hop)
  · exact rowCases_of_branch hop
  · exact .send hop (decodeFields_of_send hop)
  · exact .truth hop (decodeFields_of_truth hop)
  · exact rowCases_of_arith hop

/-- Settles O6: the fixed fields of each row are the bits that select it. -/
theorem everyWordCarriesItsRowsFixedBits : Obligations.EveryWordCarriesItsRowsFixedBits := by
  unfold Obligations.EveryWordCarriesItsRowsFixedBits
  intro w
  cases rowCases w with
  | load hop hi | store hop hi | send hop hi | truth hop hi | shufl hop hi =>
    simp [hi, decodeTruth, fixedFields, FixedField.InWord, hop]
  | jump hop hc hi | wait hop hc hi | beq hop hc hi | bne hop hc hi | bge hop hc hi | blt hop hc hi
  | beqz hop hc hi | bnez hop hc hi | add hop hc hi | sub hop hc hi | andr hop hc hi
  | orr hop hc hi =>
    simp [hi, fixedFields, FixedField.InWord, hop, hc]

end Sys2Proof.Machine
end

section
/-! PROOFS. Decoding what the encoder writes (spec/30_encoding.md sections 2 and 6): each field is read back from its own
place, and every reserved field reads as 0. -/

namespace Sys2Proof.Machine

open Sys2Proof.Laws

/-- The word of an instruction carries the fixed bits of its row (R103), for every row. -/
theorem fixedBits_encode (i : Instr) : FixedBits.Statement i := by
  cases i with
  | load tgt r => exact FixedBits.load tgt r
  | store src r mask => exact FixedBits.store src r mask
  | jump ctl => exact FixedBits.jump ctl
  | wait ctl => exact FixedBits.wait ctl
  | beq ctl a b => exact FixedBits.beq ctl a b
  | bne ctl a b => exact FixedBits.bne ctl a b
  | bge ctl a b => exact FixedBits.bge ctl a b
  | blt ctl a b => exact FixedBits.blt ctl a b
  | beqz ctl a => exact FixedBits.beqz ctl a
  | bnez ctl a => exact FixedBits.bnez ctl a
  | send src dest r trig => exact FixedBits.send src dest r trig
  | truth tgt a b c si imm table => exact FixedBits.truth tgt a b c si imm table
  | add tgt a b => exact FixedBits.add tgt a b
  | sub tgt a b => exact FixedBits.sub tgt a b
  | andr tgt a => exact FixedBits.andr tgt a
  | orr tgt a => exact FixedBits.orr tgt a
  | shufl tgt src sel => exact FixedBits.shufl tgt src sel

/-- The `SHUFL` format has no `RSVD` field. -/
theorem rsvdClear_of_shufl {w : Word} (h : w.extractLsb' 30 2 = 0b11#2) : rsvdClear w = true := by
  rw [← opcode_extract_upper] at h
  unfold rsvdClear
  split <;> simp_all

/-! ### The control fields of a branch (R84) -/

theorem decodeCtl_encodeCtl (comp : BitVec 3) (ctl : BranchCtl) :
    decodeCtl (encodeCtl comp ctl) = ctl := by
  simp (disch := omega) [decodeCtl, encodeCtl, placeBit, extract_place_same, extract_place_apart,
    ofBool_eq_one]

/-- The fields below `PC` are no part of a branch's control fields. -/
theorem decodeCtl_or_place (v : Word) {k lo : Nat} (f : BitVec k) (h : lo + k ≤ 12) :
    decodeCtl (v ||| place f lo) = decodeCtl v := by
  simp (disch := omega) [decodeCtl, extract_place_apart]

/-- A branch's control fields leave the bits below `PC` at 0. -/
theorem encodeCtl_extract_low (comp : BitVec 3) (ctl : BranchCtl) {lo k : Nat} (h : lo + k ≤ 12) :
    (encodeCtl comp ctl).extractLsb' lo k = 0#k := by
  simp (disch := omega) [encodeCtl, placeBit, extract_place_apart]

/-! ### The instruction read back -/

/-- The decoder takes no reserved bit into account, so this holds under either `RSVD_POLICY`. -/
theorem decodeFields_encode {i : Instr} (hw : i.wellFormed = true) :
    decodeFields (encode i) = i := by
  have hfixed := fixedBits_encode i
  cases i <;> simp [FixedBits.Statement, fixedFields, FixedField.InWord] at hfixed
  case load tgt r =>
    rw [decodeFields_of_load hfixed]
    simp (disch := omega) [encode, encodeElem, decodeElem, fieldTgt, extract_place_same,
      extract_place_apart]
  case store src r mask =>
    rw [decodeFields_of_store hfixed]
    simp (disch := omega) [encode, encodeElem, decodeElem, fieldSrcA, extract_place_same,
      extract_place_apart]
  case send src dest r trig =>
    rw [decodeFields_of_send hfixed]
    simp (disch := omega) [encode, encodeElem, decodeElem, decodeNodeId, fieldSrcA, placeBit,
      extract_place_same, extract_place_apart, ofBool_eq_one]
  case truth tgt a b c si imm table =>
    rw [decodeFields_of_truth hfixed]
    cases si <;> simp [Instr.wellFormed] at hw <;> subst hw <;>
      simp (disch := omega) [encode, decodeTruth, fieldTgt, fieldSrcA, fieldSrcB, fieldSrcC, placeBit,
        extract_place_same, extract_place_apart]
  case shufl tgt src sel =>
    rw [decodeFields_of_shufl hfixed]
    simp (disch := omega) [encode, encodeSelectors, decodeSelectors, fieldTgt, fieldSrcA,
      extract_place_same, extract_place_apart]
  case jump ctl | wait ctl | beq ctl a b | bne ctl a b | bge ctl a b | blt ctl a b | beqz ctl a =>
    obtain ⟨hop, hcomp⟩ := hfixed
    rw [decodeFields_of_branch hop]
    simp only [decodeBranch, hcomp]
    simp (disch := omega) [encode, decodeCtl_encodeCtl, decodeCtl_or_place, encodeCtl_extract_low,
      fieldSrcA, fieldSrcB, extract_place_same, extract_place_apart]
  case bnez ctl a =>
    obtain ⟨hop, hcomp⟩ := hfixed
    rw [decodeFields_of_branch hop, decodeBranch_of_bnez hcomp]
    simp (disch := omega) [encode, decodeCtl_encodeCtl, decodeCtl_or_place, encodeCtl_extract_low,
      fieldSrcA, extract_place_same]
  case add tgt a b | sub tgt a b | andr tgt a =>
    obtain ⟨hop, hcomp⟩ := hfixed
    rw [decodeFields_of_arith hop]
    simp only [decodeArith, hcomp]
    simp (disch := omega) [encode, fieldTgt, fieldSrcA, fieldSrcB, extract_place_same,
      extract_place_apart]
  case orr tgt a =>
    obtain ⟨hop, hcomp⟩ := hfixed
    rw [decodeFields_of_arith hop, decodeArith_of_orr hcomp]
    simp (disch := omega) [encode, fieldTgt, fieldSrcA, extract_place_same, extract_place_apart]

/-! ### The reserved fields -/

/-- The encoder writes 0 into every `RSVD` field (R98). -/
theorem rsvdClear_encode (i : Instr) : rsvdClear (encode i) = true := by
  have hfixed := fixedBits_encode i
  cases i <;> simp [FixedBits.Statement, fixedFields, FixedField.InWord] at hfixed
  case load tgt r | store src r mask | send src dest r trig =>
    simp only [rsvdClear, hfixed]
    simp (disch := omega) [encode, encodeElem, placeBit, extract_place_apart]
  case truth tgt a b c si imm table => simp only [rsvdClear, hfixed]
  case jump ctl | wait ctl | beq ctl a b | bne ctl a b | bge ctl a b | blt ctl a b | beqz ctl a
    | bnez ctl a =>
    simp only [rsvdClear, hfixed]
    simp (disch := omega) [encode, encodeCtl_extract_low, extract_place_apart]
  case add tgt a b | sub tgt a b | andr tgt a | orr tgt a =>
    simp only [rsvdClear, hfixed]
    simp (disch := omega) [encode, extract_place_apart]
  case shufl tgt src sel => exact rsvdClear_of_shufl hfixed

/-- Settles O7: the encoder writes no reserved bit, and each field is read back from its place. -/
theorem decodeOfEncode : Obligations.DecodeOfEncode := by
  unfold Obligations.DecodeOfEncode
  intro p i hw
  cases p with
  | refuse => simp only [decode, rsvdClear_encode, if_true, decodeFields_encode hw]
  | ignore => simp only [decode, decodeFields_encode hw]

end Sys2Proof.Machine
end

section
/-! PROOFS. The fields of a word as numbers (spec/30_encoding.md section 2, rules R82 to R88). -/

namespace Sys2Proof.Machine

/-- The bits of a field as the number the format tables speak of. -/
theorem extract_toNat_eq_div_mod (w : Word) (lo len : Nat) :
    (w.extractLsb' lo len).toNat = w.toNat / 2 ^ lo % 2 ^ len := by
  rw [BitVec.extractLsb'_toNat, Nat.shiftRight_eq_div_pow]

theorem beq_one_toNat : ∀ b : Bit, (b == 1#1).toNat = b.toNat := by decide

/-- Every `BRANCH` word has the control fields at the places of R84. -/
theorem branchFields_decodeBranch (w : Word) : branchFields (decodeBranch w) = some (decodeCtl w) := by
  unfold decodeBranch
  split <;> rfl

/-- Settles O5: each field of the decoder is the extract of its bits, and `COMP` and `OP` select the row. -/
theorem formatsPlaceTheirFields : Obligations.FormatsPlaceTheirFields := by
  unfold Obligations.FormatsPlaceTheirFields
  intro w field
  have hfield : ∀ lo len, field lo len = (w.extractLsb' lo len).toNat :=
    fun lo len => (extract_toNat_eq_div_mod w lo len).symm
  clear_value field
  simp only [hfield]
  refine ⟨fun hop => ?load, fun hop => ?store, fun hop => ?branch, fun hop => ?send,
    fun hop => ?truth, fun hop => ?arith, fun hop => ?shufl⟩
  case load =>
    exact ⟨_, _, decodeFields_of_load (BitVec.eq_of_toNat_eq hop), rfl, rfl, rfl, rfl⟩
  case store =>
    exact ⟨_, _, _, decodeFields_of_store (BitVec.eq_of_toNat_eq hop), rfl, rfl, rfl, rfl, rfl⟩
  case branch =>
    rw [decodeFields_of_branch (BitVec.eq_of_toNat_eq hop)]
    have hrow {i : Instr} (c : BitVec 3)
        (hi : w.extractLsb' 25 3 = c → decodeBranch w = i)
        (hc : (w.extractLsb' 25 3).toNat = c.toNat) : decodeBranch w = i :=
      hi (BitVec.eq_of_toNat_eq hc)
    refine ⟨_, branchFields_decodeBranch w, beq_one_toNat _, beq_one_toNat _, rfl, rfl,
      hrow 0 fun hc => ?_, hrow 1 fun hc => ?_, fun _ => ⟨fieldSrcA w, rfl,
        hrow 6 fun hc => ?_, hrow 7 decodeBranch_of_bnez, fun _ => ⟨fieldSrcB w, rfl,
          hrow 2 fun hc => ?_, hrow 3 fun hc => ?_, hrow 4 fun hc => ?_,
          hrow 5 fun hc => ?_⟩⟩⟩ <;>
      simp [decodeBranch, hc]
  case send =>
    exact ⟨_, _, _, _, decodeFields_of_send (BitVec.eq_of_toNat_eq hop), beq_one_toNat _, rfl, rfl,
      rfl, rfl, rfl, rfl⟩
  case truth =>
    exact ⟨_, _, _, _, _, _, _, decodeFields_of_truth (BitVec.eq_of_toNat_eq hop), rfl,
      beq_one_toNat _, fun hsi => by simp [hsi], fun hsi => by simp [hsi, fieldSrcC], rfl, rfl, rfl⟩
  case arith =>
    rw [decodeFields_of_arith (BitVec.eq_of_toNat_eq hop)]
    have hrow {i : Instr} (o : BitVec 2) (hi : w.extractLsb' 22 2 = o → decodeArith w = i)
        (ho : (w.extractLsb' 22 2).toNat = o.toNat) : decodeArith w = i :=
      hi (BitVec.eq_of_toNat_eq ho)
    refine ⟨fieldTgt w, fieldSrcA w, fieldSrcB w, rfl, rfl, rfl, hrow 0 fun ho => ?_,
      hrow 1 fun ho => ?_, hrow 2 fun ho => ?_, hrow 3 decodeArith_of_orr⟩ <;>
      simp [decodeArith, ho]
  case shufl =>
    exact ⟨_, _, _, decodeFields_of_shufl (BitVec.eq_of_toNat_eq hop), rfl, rfl, rfl, rfl, rfl, rfl,
      rfl, rfl, rfl, rfl⟩

/-- Settles O3: the decoder run on each of the eight words. -/
theorem specWordsDecode : Obligations.SpecWordsDecode := by
  unfold Obligations.SpecWordsDecode
  decide

end Sys2Proof.Machine
end

section
/-! PROOFS. Masks (spec/30_encoding.md section 4, rules R98 and R99): a field put back in place is its word under the
field's mask, so the encoder's word is the decoded word under the mask of the fields its row uses. -/

namespace Sys2Proof.Machine

/-- The bits of the field of `len` bits from bit `lo`. -/
def fieldMask (lo len : Nat) : Word := place (BitVec.allOnes len) lo

/-- A field put back in its place. -/
theorem place_extract (w : Word) (lo len : Nat) :
    place (w.extractLsb' lo len) lo = w &&& fieldMask lo len := by
  ext i hi
  by_cases hlo : i < lo
  · simp [place, fieldMask, hlo]
  · have hadd : lo + (i - lo) = i := by omega
    simp [place, fieldMask, hlo, hadd, Bool.and_comm, BitVec.getLsbD_eq_getElem hi]

theorem place_of_extract_eq {w : Word} {lo len : Nat} {f : BitVec len}
    (hf : w.extractLsb' lo len = f) : place f lo = w &&& fieldMask lo len :=
  hf ▸ place_extract w lo len

theorem ofBool_beq_one : ∀ b : Bit, BitVec.ofBool (b == 1#1) = b := by decide

theorem extract_eq_zero_iff (w : Word) {lo len : Nat} (h : lo + len ≤ 32) :
    w.extractLsb' lo len = 0#len ↔ w &&& fieldMask lo len = 0#32 := by
  rw [← place_extract w]
  constructor
  · intro h0
    simp [h0, place]
  · intro h0
    rw [← extract_place_same (w.extractLsb' lo len) h, h0]
    simp

/-- A field is the same under a mask that keeps it. -/
theorem extract_and_of_kept (w : Word) {m : Word} {lo len : Nat}
    (h : m.extractLsb' lo len = BitVec.allOnes len) :
    (w &&& m).extractLsb' lo len = w.extractLsb' lo len := by
  rw [BitVec.extractLsb'_and, h, BitVec.and_allOnes]

/-! ### Reserved bits (R98) -/

/-- The fields the decoder tests are those of R98's masks. -/
theorem rsvdClear_iff (w : Word) :
    rsvdClear w = true ↔ w &&& rsvdMask (formatOf (decodeFields w)) = 0#32 := by
  rw [formatOf_decodeFields]
  rcases opcode_cases (w.extractLsb' 29 3) with hop | hop | hop | hop | hop | hop | hop
  · rw [opcode_extract_upper] at hop
    have hformat := (formatOfOpcode_eq_shufl_iff _).mpr ((opcode_extract_upper w).trans hop)
    rw [rsvdClear_of_shufl hop, hformat]
    simp [rsvdMask]
  · have hmask : rsvdMask .load = fieldMask 24 5 ||| fieldMask 6 5 ||| fieldMask 0 3 := by decide
    simp [rsvdClear, hop, formatOfOpcode, hmask, BitVec.and_or_distrib_left, extract_eq_zero_iff]
  · have hmask : rsvdMask .store = fieldMask 24 5 := by decide
    simp [rsvdClear, hop, formatOfOpcode, hmask, extract_eq_zero_iff]
  · have hmask : rsvdMask .branch = fieldMask 9 3 ||| fieldMask 3 3 := by decide
    simp [rsvdClear, hop, formatOfOpcode, hmask, BitVec.and_or_distrib_left, extract_eq_zero_iff]
  · have hmask : rsvdMask .send = fieldMask 25 4 := by decide
    simp [rsvdClear, hop, formatOfOpcode, hmask, extract_eq_zero_iff]
  · simp [rsvdClear, hop, formatOfOpcode, rsvdMask]
  · have hmask : rsvdMask .arith = fieldMask 24 5 ||| fieldMask 9 13 := by decide
    simp [rsvdClear, hop, formatOfOpcode, hmask, BitVec.and_or_distrib_left, extract_eq_zero_iff]

/-- Clearing the reserved bits changes no field the decoder reads. -/
theorem decodeFields_and_not_rsvdMask (w : Word) :
    decodeFields (w &&& ~~~rsvdMask (formatOf (decodeFields w))) = decodeFields w := by
  rw [formatOf_decodeFields]
  rcases opcode_cases (w.extractLsb' 29 3) with hop | hop | hop | hop | hop | hop | hop
  · rw [(formatOfOpcode_eq_shufl_iff _).mpr hop]
    simp only [rsvdMask, BitVec.not_zero, BitVec.and_allOnes]
  · rw [hop, decodeFields_of_load hop,
      decodeFields_of_load ((extract_and_of_kept w (by decide)).trans hop)]
    simp (disch := decide) only [decodeElem, fieldTgt, extract_and_of_kept]
  · rw [hop, decodeFields_of_store hop,
      decodeFields_of_store ((extract_and_of_kept w (by decide)).trans hop)]
    simp (disch := decide) only [decodeElem, fieldSrcA, extract_and_of_kept]
  · rw [hop, decodeFields_of_branch hop,
      decodeFields_of_branch ((extract_and_of_kept w (by decide)).trans hop)]
    simp (disch := decide) only [decodeBranch, decodeCtl, fieldSrcA, fieldSrcB, extract_and_of_kept]
  · rw [hop, decodeFields_of_send hop,
      decodeFields_of_send ((extract_and_of_kept w (by decide)).trans hop)]
    simp (disch := decide) only [decodeElem, decodeNodeId, fieldSrcA, extract_and_of_kept]
  · rw [hop]
    simp only [formatOfOpcode, rsvdMask, BitVec.not_zero, BitVec.and_allOnes]
  · rw [hop, decodeFields_of_arith hop,
      decodeFields_of_arith ((extract_and_of_kept w (by decide)).trans hop)]
    simp (disch := decide) only [decodeArith, fieldTgt, fieldSrcA, fieldSrcB, extract_and_of_kept]

/-- Settles O9: the decoder's test is the mask of the word's format, and no field lies under it. -/
theorem reservedBitsAreRejectedUnderRefuse : Obligations.ReservedBitsAreRejectedUnderRefuse := by
  unfold Obligations.ReservedBitsAreRejectedUnderRefuse
  intro w
  rw [Ne, ← rsvdClear_iff w]
  refine ⟨?_, fun h => ?_, rfl, decodeFields_and_not_rsvdMask w⟩
  · cases h : rsvdClear w <;> simp [decode, h]
  · simp [decode, h]

/-! ### Ignored bits (R99) -/

theorem wellFormed_decodeFields (w : Word) : (decodeFields w).wellFormed = true := by
  cases rowCases w with
  | truth hop hi =>
    rw [hi, decodeTruth]
    cases hsi : w.extractLsb' 20 1 == 1#1 <;> simp [Instr.wellFormed]
  | load hop hi | store hop hi | send hop hi | shufl hop hi => simp [hi, Instr.wellFormed]
  | jump hop hc hi | wait hop hc hi | beq hop hc hi | bne hop hc hi | bge hop hc hi | blt hop hc hi
  | beqz hop hc hi | bnez hop hc hi | add hop hc hi | sub hop hc hi | andr hop hc hi
  | orr hop hc hi => simp [hi, Instr.wellFormed]

theorem place_zero (lo len : Nat) : place (0#len) lo = 0#32 := by simp [place]

theorem bit_cases : ∀ b : Bit, b = 0#1 ∨ b = 1#1 := by decide

/-- The encoder puts back the fields the row uses, which are the bits neither reserved nor ignored. -/
theorem encode_decodeFields (w : Word) : encode (decodeFields w) =
    w &&& ~~~(rsvdMask (formatOf (decodeFields w)) ||| ignoredMask (decodeFields w)) := by
  cases rowCases w with
  | truth hop hi =>
    rw [hi, decodeTruth]
    rcases bit_cases (w.extractLsb' 20 1) with hsi | hsi <;>
      simp [hsi, encode, fieldTgt, fieldSrcA, fieldSrcB, fieldSrcC, placeBit, place_zero, formatOf,
        rsvdMask, ignoredMask, place_of_extract_eq hop, place_of_extract_eq hsi, place_extract,
        ← BitVec.and_or_distrib_left] <;>
      exact congrArg (w &&& ·) (by decide)
  | load hop hi | store hop hi | send hop hi | shufl hop hi =>
    rw [hi]
    simp only [encode, encodeElem, encodeSelectors, decodeElem, decodeNodeId,
      decodeSelectors, fieldTgt, fieldSrcA, placeBit, ofBool_beq_one, formatOf, rsvdMask, ignoredMask,
      place_of_extract_eq hop, place_extract, ← BitVec.and_or_distrib_left]
    exact congrArg (w &&& ·) (by decide)
  | jump hop hc hi | wait hop hc hi | beq hop hc hi | bne hop hc hi | bge hop hc hi | blt hop hc hi
  | beqz hop hc hi | bnez hop hc hi | add hop hc hi | sub hop hc hi | andr hop hc hi
  | orr hop hc hi =>
    rw [hi]
    simp only [encode, encodeCtl, decodeCtl, fieldTgt, fieldSrcA, fieldSrcB,
      placeBit, ofBool_beq_one, formatOf, rsvdMask, ignoredMask, place_of_extract_eq hop,
      place_of_extract_eq hc, place_extract, ← BitVec.and_or_distrib_left]
    exact congrArg (w &&& ·) (by decide)

theorem and_not_of_and_eq_zero {w m : Word} (h : w &&& m = 0#32) : w &&& ~~~m = w :=
  calc w &&& ~~~m = (w &&& m) ||| (w &&& ~~~m) := by rw [h, BitVec.zero_or]
    _ = w := by rw [← BitVec.and_or_distrib_left, BitVec.or_not_self, BitVec.and_allOnes]

/-- Settles O8: what is decoded is in the encoder's form, and the fields its row uses are put back. -/
theorem encodeOfDecodeClearsIgnoredBits : Obligations.EncodeOfDecodeClearsIgnoredBits := by
  unfold Obligations.EncodeOfDecodeClearsIgnoredBits
  intro w
  refine ⟨wellFormed_decodeFields w, fun hr => ?_⟩
  rw [encode_decodeFields, BitVec.not_or, ← BitVec.and_assoc, and_not_of_and_eq_zero hr]

end Sys2Proof.Machine
end

section
/-! PROOFS. The invariant (spec/10_state.md sections 4 to 6, spec/20_memory.md section 7): it holds after reset and every
step keeps it. -/

namespace Sys2Proof.Machine

theorem wf_wake {c : Config} {n : Node} (h : n.wf c = true) : (n.wake c).wf c = true :=
  wf_of_same (wf_consume h) rfl rfl rfl rfl

theorem wf_takenNode {c : Config} {n : Node} (h : n.wf c = true) (ctl : BranchCtl) (k : Nat) :
    (takenNode c ctl k n).wf c = true :=
  wf_of_same h rfl rfl rfl rfl

/-- Every instruction of a node of the mesh keeps the invariant. -/
theorem exec_keeps_inv {i : Instr} {s t : State} (h : s.inv = true)
    (hin : inMesh s.cfg s.active = true) (he : ExecCases i s t) : t.inv = true := by
  have hwf : s.cur.wf s.cfg = true := node_wf h s.active
  cases he with
  | register tgt v hi hc ht => exact ht ▸ inv_setNode h hin (wf_of_same hwf rfl rfl rfl rfl)
  | store src r mask v hi hc ht =>
    exact ht ▸ inv_setNode h hin (wf_of_same (wf_putElem hwf _ v) rfl rfl rfl rfl)
  | taken ctl hi hw hn ht => exact ht ▸ inv_setNode h hin (wf_takenNode hwf ..)
  | notTaken ctl d hi hd hc ht => exact ht ▸ inv_setNode h hin (wf_of_same hwf rfl rfl rfl rfl)
  | waits ctl hi hp ht => exact ht ▸ h
  | resumes ctl hi hp ht => exact ht ▸ inv_setNode h hin (wf_takenNode (wf_consume hwf) ..)
  | sendHolds src dest r trig hi hd hm hf ht => exact ht ▸ h
  | sends src dest r trig hi hd hm hf hc ht =>
    exact ht ▸ inv_setNode (inv_post h (sendMessage_ok s src r trig hm) hf) hin
      (wf_of_same hwf rfl rfl rfl rfl)

/-- Settles O59: by the ways a step can go; each writes one well-formed node, adds one message that fits or removes
one. -/
theorem everyStepKeepsTheInvariant : Obligations.EveryStepKeepsTheInvariant := by
  unfold Obligations.EveryStepKeepsTheInvariant
  intro s t h hstep
  have hturn (u : State) (hc : u.cfg = s.cfg) (hn : u.nodes = s.nodes) (hm : u.net = s.net) :
      u.inv = true := inv_of_same h hc hn hm
  cases step_next hstep with
  | holds hc hn hm => exact hturn t hc hn hm
  | wakes id rest hs hin hi hp ht =>
    exact ht ▸ inv_setNode (hturn (s.turnOf id rest) rfl rfl rfl) hin (wf_wake (node_wf h id))
  | executes id rest i hs hin hi hf he =>
    exact exec_keeps_inv (hturn (s.turnOf id rest) rfl rfl rfl) hin he
  | delivers k keep rest m n hs hk hd hin hr ht =>
    have hnet := inv_eraseIdx (hturn (s.turn (.deliver k keep) rest) rfl rfl rfl) k
    exact ht ▸ inv_setNode hnet hin (wf_receive (node_wf h m.target) hr)
  | injects m rest hs hh hm hf ht =>
    exact ht ▸ inv_post (hturn (s.turn (.inject m) rest) rfl rfl rfl) hm hf

/-- After reset every node is as at launch. -/
theorem node_reset (id : NodeId) : State.reset.node id = Node.launch Config.default := rfl

/-- Settles O1: no node is listed, so each shows the launch values. -/
theorem resetIsTheLaunchState : Obligations.ResetIsTheLaunchState := by
  unfold Obligations.ResetIsTheLaunchState
  refine ⟨fun id => ?_, rfl⟩
  rw [node_reset]
  exact ⟨rfl, rfl, rfl, rfl, fun _ => rfl, fun _ => rfl⟩

/-- Settles O2: the default mesh is within 16 by 16, and no node and no message is listed. -/
theorem resetMeetsTheInvariant : Obligations.ResetMeetsTheInvariant := by
  unfold Obligations.ResetMeetsTheInvariant
  exact (inv_iff _).mpr ⟨rfl, rfl, List.forall_mem_nil _, List.forall_mem_nil _, rfl⟩

end Sys2Proof.Machine
end

section
/-! PROOFS. `LOAD` and `STORE` (spec/40_load_store.md): what an access to an element answers, with a value and without,
and the instructions made of it. -/

namespace Sys2Proof.Machine

theorem ones_bit {i : Nat} (hi : i < 8) : (0xFF#8).getLsbD i = true := by
  show (BitVec.allOnes 8).getLsbD i = true
  rw [BitVec.getLsbD_allOnes, decide_eq_true hi]

theorem byte_eq_ones_iff (v : Byte) : v = 0xFF#8 ↔ ∀ i < 8, v.getLsbD i = true := by
  refine ⟨fun h i hi => h ▸ ones_bit hi, fun h => BitVec.eq_of_getLsbD_eq fun i hi => ?_⟩
  rw [h i hi, ones_bit hi]

/-! ### Accesses to one element -/

section Access
variable {c : Config} {n : Node} {ea : ElemAddr}

theorem readElem_of_value {v : Byte} (ht : textRefused c n ea = false)
    (hv : Memory.read n.dmem ea.toNat = some v) : readElem c n ea = .ok v := by
  simp [readElem, ht, hv]

theorem readElem_of_no_value (ht : textRefused c n ea = false)
    (hv : Memory.read n.dmem ea.toNat = none) :
    readElem c n ea = .error (.unwrittenRead (.element ea)) := by
  simp [readElem, ht, hv]

theorem readElem_of_text (ht : textRefused c n ea = true) :
    readElem c n ea = .error .dataAccessToProgramText := by
  simp [readElem, ht]

theorem writeElem_of_open (ht : textRefused c n ea = false) (v : Byte) :
    writeElem c n ea v = .ok (n.putElem ea v) := by
  simp [writeElem, ht]

theorem writeElem_of_text (ht : textRefused c n ea = true) (v : Byte) :
    writeElem c n ea v = .error .dataAccessToProgramText := by
  simp [writeElem, ht]

theorem textRefused_of_lookup {w : Word} (hm : c.memUnified = .refuseOverlap)
    (hl : lookup n.imem (entryOf ea) = some w) : textRefused c n ea = true := by
  simp [textRefused, Node.holdsText, hm, hl]

/-! ### The byte a `STORE` leaves (R122) -/

theorem updateMask_eq_all_iff (p : MaskPolarity) (mask : Byte) :
    updateMask p mask = 0xFF#8 ↔ ∀ i < 8, mask.getLsbD i = decide (p = .oneUpdates) := by
  rw [byte_eq_ones_iff]
  refine forall₂_congr fun i hi => ?_
  rw [updateMask_bit p mask hi, decide_eq_true_iff]

theorem mergeBits_all (old v : Byte) : mergeBits 0xFF#8 old v = v := by
  refine BitVec.eq_of_getLsbD_eq fun i hi => ?_
  rw [mergeBits_bit _ _ _ i hi, ones_bit hi, if_pos rfl]

theorem storedByte_of_all {mask : Byte} (hm : updateMask c.maskPolarity mask = 0xFF#8) (v : Byte) :
    storedByte c n ea mask v = .ok v := by
  simp [storedByte, hm]

theorem storedByte_of_value {old : Byte} (ht : textRefused c n ea = false)
    (hold : Memory.read n.dmem ea.toNat = some old) (mask v : Byte) :
    storedByte c n ea mask v = .ok (mergeBits (updateMask c.maskPolarity mask) old v) := by
  by_cases hm : updateMask c.maskPolarity mask = 0xFF#8
  · rw [storedByte_of_all hm, hm, mergeBits_all]
  · simp [storedByte, hm, readElem_of_value ht hold]

theorem storedByte_of_readElem_error {mask : Byte} {x : Refusal}
    (hm : updateMask c.maskPolarity mask ≠ 0xFF#8) (hr : readElem c n ea = .error x) (v : Byte) :
    storedByte c n ea mask v = .error x := by
  simp [storedByte, hm, hr]

end Access

/-! ### The instructions -/

section Instructions
variable {s : State} {r : ElemRef}

theorem exec_load_of_ok {tgt : Reg} {v : Byte}
    (h : readElem s.cfg s.cur (elemAddr r s.cur.dflt) = .ok v) :
    exec (.load tgt r) s = writeAndRetire s tgt v := by
  simp only [exec, execLoad, h]

theorem exec_load_of_error {tgt : Reg} {x : Refusal}
    (h : readElem s.cfg s.cur (elemAddr r s.cur.dflt) = .error x) :
    exec (.load tgt r) s = .refused x := by
  simp only [exec, execLoad, h]

theorem exec_store_of_ok {src : Reg} {mask v : Byte}
    (hopen : s.DataOpen s.active (elemAddr r s.cur.dflt))
    (h : storedByte s.cfg s.cur (elemAddr r s.cur.dflt) mask (s.cur.reg src) = .ok v) :
    exec (.store src r mask) s = retire s (s.cur.putElem (elemAddr r s.cur.dflt) v) := by
  have ht : textRefused s.cfg s.cur (elemAddr r s.cur.dflt) = false := textRefused_of_dataOpen hopen
  simp only [exec, execStore, h, writeElem_of_open ht]

theorem exec_store_of_error {src : Reg} {mask : Byte} {x : Refusal}
    (h : storedByte s.cfg s.cur (elemAddr r s.cur.dflt) mask (s.cur.reg src) = .error x) :
    exec (.store src r mask) s = .refused x := by
  simp only [exec, execStore, h]

/-- A `STORE` to program text is refused whether or not it reads the old element. -/
theorem exec_store_of_text (ht : textRefused s.cfg s.cur (elemAddr r s.cur.dflt) = true) (src : Reg)
    (mask : Byte) : exec (.store src r mask) s = .refused .dataAccessToProgramText := by
  by_cases hm : updateMask s.cfg.maskPolarity mask = 0xFF#8
  · simp only [exec, execStore, storedByte_of_all hm, writeElem_of_text ht]
  · exact exec_store_of_error (storedByte_of_readElem_error hm (readElem_of_text ht) _)

theorem writesElement_setNode (s : State) (ea : ElemAddr) (v : Byte) :
    WritesElement ea v s (s.setNode s.active { s.cur.putElem ea v with pc := s.cur.pc + 1#10 }) := by
  unfold WritesElement
  rw [cur_setNode_active]
  exact ⟨elementWritten_putElem s.cur ea v, rfl, rfl, rfl, rfl, rfl, rfl,
    onlyNodeChanged_setNode s s.active _, rfl⟩

theorem exec_store_completes {src : Reg} {mask v : Byte} (hc : s.CanAdvance)
    (hopen : s.DataOpen s.active (elemAddr r s.cur.dflt))
    (h : storedByte s.cfg s.cur (elemAddr r s.cur.dflt) mask (s.cur.reg src) = .ok v) :
    ∃ t, exec (.store src r mask) s = .next t ∧ WritesElement (elemAddr r s.cur.dflt) v s t :=
  ⟨_, (exec_store_of_ok hopen h).trans (retire_of_canAdvance hc rfl), writesElement_setNode s _ v⟩

end Instructions

/-- Settles O13: the element at the address of R50 is read and retired into the target. -/
theorem loadReadsTheElement : Obligations.LoadReadsTheElement := by
  unfold Obligations.LoadReadsTheElement
  intro s tgt r v hc hopen hv
  rw [← elemAddr_toNat] at hv
  rw [exec_load_of_ok (readElem_of_value (textRefused_of_dataOpen hopen) hv)]
  exact writeAndRetire_completes hc tgt v

/-- Settles O14. -/
theorem loadOfElementWithoutValueIsRefused : Obligations.LoadOfElementWithoutValueIsRefused := by
  unfold Obligations.LoadOfElementWithoutValueIsRefused
  intro s tgt r hopen hv
  exact exec_load_of_error (readElem_of_no_value (textRefused_of_dataOpen hopen) hv)

/-- Settles O15: the byte left is the merge under the updated bits, read bit by bit. -/
theorem storeUpdatesTheMaskedBits : Obligations.StoreUpdatesTheMaskedBits := by
  unfold Obligations.StoreUpdatesTheMaskedBits
  intro s src r mask old hc hopen hold
  obtain ⟨t, ht, hw⟩ := exec_store_completes hc hopen
    (storedByte_of_value (textRefused_of_dataOpen hopen) hold mask (s.cur.reg src))
  refine ⟨t, _, ht, hw, fun i hi => ?_⟩
  simp only [mergeBits_bit _ _ _ i hi, updateMask_bit _ _ hi, decide_eq_true_eq]

/-- Settles O16: where every bit is updated the old element is not read. -/
theorem storeOfAllBitsNeedsNoOldValue : Obligations.StoreOfAllBitsNeedsNoOldValue := by
  unfold Obligations.StoreOfAllBitsNeedsNoOldValue
  intro s src r mask hc hopen hall
  exact exec_store_completes hc hopen (storedByte_of_all ((updateMask_eq_all_iff _ _).mpr hall) _)

/-- Settles O17: where a bit is kept the old element is read, and it has no value. -/
theorem storeOverElementWithoutValueIsRefused :
    Obligations.StoreOverElementWithoutValueIsRefused := by
  unfold Obligations.StoreOverElementWithoutValueIsRefused
  rintro s src r mask hopen hv ⟨i, hi, hkept⟩
  have hm : updateMask s.cfg.maskPolarity mask ≠ 0xFF#8 :=
    fun h => hkept ((updateMask_eq_all_iff _ _).mp h i hi)
  exact exec_store_of_error (storedByte_of_readElem_error hm
    (readElem_of_no_value (textRefused_of_dataOpen hopen) hv) _)

end Sys2Proof.Machine
end

section
/-! PROOFS. The eight branches (spec/41_branch.md): a branch that is taken, one that is not, and which of the two each
condition gives. -/

namespace Sys2Proof.Machine

/-! ### Taken and not taken -/

section Branch
variable {s : State} {i : Instr} {ctl : BranchCtl}

theorem exec_jump_completes (s : State) (ctl : BranchCtl) :
    ∃ t, exec (.jump ctl) s = .next t ∧ TakenBranch ctl s t ∧ t.cur.trigPend = s.cur.trigPend :=
  branchTaken_cur_completes s ctl

theorem exec_condition_true (h : branchCondition s i = some (ctl, true)) :
    ∃ t, exec i s = .next t ∧ TakenBranch ctl s t ∧ t.cur.trigPend = s.cur.trigPend := by
  rw [exec_of_branchCondition h]
  exact branchTaken_cur_completes s ctl

theorem exec_condition_false {d : Bit} (h : branchCondition s i = some (ctl, false))
    (hc : s.CanAdvance)
    (hd : notTakenDefault s.cfg.offsetNotTaken ctl.offset s.cur.dflt = some d) :
    ∃ t, exec i s = .next t ∧ NotTakenBranch d s t := by
  rw [exec_of_branchCondition h]
  exact branchNotTaken_completes hc hd

theorem exec_wait_of_pending (hp : s.cur.trigPend ≠ 0) :
    exec (.wait ctl) s = branchTaken s ctl (s.cur.consume s.cfg) :=
  if_neg hp

theorem exec_wait_of_none (hp : s.cur.trigPend = 0) : exec (.wait ctl) s = .next s :=
  if_pos hp

/-- A `WAIT` with a trigger pending is a taken branch of the node that has consumed it (R145). -/
theorem exec_wait_completes (ctl : BranchCtl) (hp : s.cur.trigPend ≠ 0) :
    ∃ t, exec (.wait ctl) s = .next t ∧ TakenBranch ctl s t ∧
      t.cur.trigPend = (s.cur.consume s.cfg).trigPend := by
  rw [exec_wait_of_pending hp]
  exact branchTaken_completes s ctl (s.cur.consume s.cfg).trigPend

theorem takesBranch_completes (h : TakesBranch ctl i s) :
    ∃ t, exec i s = .next t ∧ TakenBranch ctl s t := by
  rcases h with rfl | ⟨rfl, hp⟩ | hcond
  · obtain ⟨t, ht, htaken, _⟩ := exec_jump_completes s ctl
    exact ⟨t, ht, htaken⟩
  · obtain ⟨t, ht, htaken, _⟩ := exec_wait_completes ctl hp
    exact ⟨t, ht, htaken⟩
  · obtain ⟨t, ht, htaken, _⟩ := exec_condition_true hcond
    exact ⟨t, ht, htaken⟩

/-- Two branches with opposite conditions: where one is taken the other goes on, with `OFFSET` 2b00. -/
theorem opposite_branches {j : Instr} {b : Bool} (hi : branchCondition s i = some (ctl, b))
    (hj : branchCondition s j = some (ctl, !b)) (hb : b = true) :
    (∃ t, exec i s = .next t ∧ TakenBranch ctl s t ∧ t.cur.trigPend = s.cur.trigPend) ∧
      (ctl.offset = 0b00#2 → s.CanAdvance →
        ∃ t, exec j s = .next t ∧ NotTakenBranch s.cur.dflt s t) := by
  subst hb
  exact ⟨exec_condition_true hi, fun ho hc => exec_condition_false hj hc (if_pos ho)⟩

end Branch

/-! ### The triggers a node consumes (R236) -/

theorem consume_trigPend_oneBit {c : Config} (h : c.trigCoalesce = .oneBit) (n : Node) :
    (n.consume c).trigPend = 0 := by
  simp [Node.consume, h]

theorem consume_trigPend_count {c : Config} (h : c.trigCoalesce = .count) (n : Node) :
    (n.consume c).trigPend = n.trigPend - 1 := by
  simp [Node.consume, h]

/-! ### The conditions -/

theorem condLt_eq_not_condGe (p : CmpSigned) (a b : Byte) : condLt p a b = !condGe p a b := by
  cases p <;> simp [condLt, condGe, ← decide_not]

/-- The sign bit of a byte as a number. -/
theorem bit7_iff (a : Byte) : a.getLsbD 7 = true ↔ 128 ≤ a.toNat := by
  have hmsb : a.getLsbD 7 = decide (128 ≤ a.toNat) := BitVec.msb_eq_decide a
  rw [hmsb, decide_eq_true_iff]

theorem condGe_iff {p : CmpSigned} {a b : Byte} {ge : Prop}
    (hu : p = .unsigned → (ge ↔ b.toNat ≤ a.toNat)) (hs : p = .signed → (ge ↔ b.toInt ≤ a.toInt)) :
    condGe p a b = true ↔ ge := by
  cases p with
  | unsigned => simp [condGe, hu rfl]
  | signed => simp [condGe, hs rfl]

/-- Settles O19. -/
theorem jumpIsTaken : Obligations.JumpIsTaken := by
  unfold Obligations.JumpIsTaken
  exact exec_jump_completes

/-- Settles O20: `OFFSET` is part of what a taken branch does, whichever branch it is. -/
theorem branchOffsetField : Obligations.BranchOffsetField := by
  unfold Obligations.BranchOffsetField
  intro s i ctl h
  obtain ⟨t, ht, _, _, _, _, _, hkeep, hinvert, hclear, hset, _⟩ := takesBranch_completes h
  exact ⟨t, ht, hkeep, hinvert, hclear, hset⟩

/-- Settles O21: with a trigger pending, the branch of the node that has consumed it. -/
theorem waitHoldsOrCompletes : Obligations.WaitHoldsOrCompletes := by
  unfold Obligations.WaitHoldsOrCompletes
  intro s ctl
  refine ⟨exec_wait_of_none, fun hp => ?_⟩
  obtain ⟨t, ht, htaken, htrig⟩ := exec_wait_completes ctl hp
  refine ⟨t, ht, htaken, fun hone => ?_, fun hcount => ?_⟩
  · rw [htrig, consume_trigPend_oneBit hone]
  · rw [htrig, consume_trigPend_count hcount]
    omega

/-- Settles O22: `BEQ` and `BNE` are branches with opposite conditions. -/
theorem equalityBranches : Obligations.EqualityBranches := by
  unfold Obligations.EqualityBranches
  intro s ctl a b
  have heq : branchCondition s (.beq ctl a b) = some (ctl, s.cur.reg a == s.cur.reg b) := rfl
  have hne : branchCondition s (.bne ctl a b) = some (ctl, s.cur.reg a != s.cur.reg b) := rfl
  exact ⟨fun h => opposite_branches heq hne (by simpa using h),
    fun h => opposite_branches hne (by simpa [bne] using heq) (by simpa using h)⟩

/-- Settles O23: `BGE` and `BLT` are branches with opposite conditions under either `CMP_SIGNED`. -/
theorem orderBranches : Obligations.OrderBranches := by
  unfold Obligations.OrderBranches
  intro s ctl a b ge hu hs
  have hiff := condGe_iff hu hs
  have hge : branchCondition s (.bge ctl a b) =
      some (ctl, condGe s.cfg.cmpSigned (s.cur.reg a) (s.cur.reg b)) := rfl
  have hlt : branchCondition s (.blt ctl a b) =
      some (ctl, !condGe s.cfg.cmpSigned (s.cur.reg a) (s.cur.reg b)) := by
    rw [← condLt_eq_not_condGe]; rfl
  exact ⟨fun h => opposite_branches hge hlt (hiff.mpr h),
    fun h => opposite_branches hlt (by rw [Bool.not_not]; exact hge)
      (by simpa using mt hiff.mp h)⟩

/-- Settles O24: the two readings of a byte differ by 256 exactly when its bit 7 is set. -/
theorem signednessMattersOnlyAcrossBit7 : Obligations.SignednessMattersOnlyAcrossBit7 := by
  unfold Obligations.SignednessMattersOnlyAcrossBit7
  intro a b
  refine ⟨?_, fun p => condLt_eq_not_condGe p a b⟩
  have ha := a.isLt
  have hb := b.isLt
  have hsign : a.getLsbD 7 = b.getLsbD 7 ↔ (128 ≤ a.toNat ↔ 128 ≤ b.toNat) := by
    rw [Bool.eq_iff_iff, bit7_iff, bit7_iff]
  simp only [condGe, decide_eq_decide, BitVec.toInt_eq_toNat_cond, hsign]
  split <;> split <;> omega

/-- Settles O25: `BEQZ` and `BNEZ` are branches with opposite conditions. -/
theorem zeroBranches : Obligations.ZeroBranches := by
  unfold Obligations.ZeroBranches
  intro s ctl a
  have heqz : branchCondition s (.beqz ctl a) = some (ctl, s.cur.reg a == 0x00#8) := rfl
  have hnez : branchCondition s (.bnez ctl a) = some (ctl, s.cur.reg a != 0x00#8) := rfl
  exact ⟨fun h => opposite_branches heqz hnez (by simpa using h),
    fun h => opposite_branches hnez (by simpa [bne] using heqz) (by simpa using h)⟩

theorem branchNotTaken_refused {s : State} {ctl : BranchCtl} (hc : s.CanAdvance)
    (hd : notTakenDefault s.cfg.offsetNotTaken ctl.offset s.cur.dflt = none) :
    branchNotTaken s ctl = .refused .branchOffsetNotTaken := by
  simp only [branchNotTaken, nextPc_of_canAdvance hc, hd]

/-- Settles O26: the `DEFAULT` a branch not taken leaves, under each setting. -/
theorem offsetOfBranchNotTaken : Obligations.OffsetOfBranchNotTaken := by
  unfold Obligations.OffsetOfBranchNotTaken
  intro s i ctl hcond hc ho
  refine ⟨fun hset => ?_, fun hset => ?_, fun hset => ?_⟩
  · rw [exec_of_branchCondition hcond]
    exact branchNotTaken_refused hc (by simp [notTakenDefault, ho, hset])
  · exact exec_condition_false hcond hc (by simp [notTakenDefault, ho, hset])
  · exact exec_condition_false hcond hc (by simp [notTakenDefault, ho, hset])

end Sys2Proof.Machine
end

section
/-! PROOFS. `SEND` (spec/42_send.md). -/

namespace Sys2Proof.Machine

section Send
variable {s : State} {dest : NodeId}

/-- A `SEND` that may be made retires with its message in flight. -/
theorem exec_send_of_room (hd : dest ≠ s.active) (hm : NodeExists s.cfg dest) (hroom : s.HasRoom)
    (src : Reg) (r : ElemRef) (trig : Bool) :
    exec (.send src dest r trig) s = retire (s.post (sendMessage src dest r trig s)) s.cur := by
  simp [exec, execSend, hd, inMesh_iff.mpr hm, netFull_iff.mpr hroom]

theorem netFull_of_not_hasRoom (h : ¬ s.HasRoom) : s.netFull = true :=
  Bool.eq_true_of_not_eq_false fun hf => h (netFull_iff.mp hf)

theorem inMesh_eq_false_of_not_nodeExists {c : Config} (h : ¬ NodeExists c dest) :
    inMesh c dest = false :=
  Bool.eq_false_of_not_eq_true fun hin => h (inMesh_iff.mp hin)

end Send

/-- The sender as its `SEND` leaves it. -/
@[simp] theorem cur_post_setNode_active (s : State) (m : Message) (n : Node) :
    ((s.post m).setNode s.active n).cur = n :=
  cur_setNode_active (s.post m) n

/-- Settles O27: the message is posted, then the sender retires unchanged but for `pc`. -/
theorem sendAddsOneMessage : Obligations.SendAddsOneMessage := by
  unfold Obligations.SendAddsOneMessage
  intro s src dest r trig hc hd hm hroom
  have hretire : retire (s.post (sendMessage src dest r trig s)) s.cur =
      .next ((s.post (sendMessage src dest r trig s)).setNode s.active
        { s.cur with pc := s.cur.pc + 1#10 }) :=
    retire_of_canAdvance (show (s.post _).CanAdvance from hc) rfl
  refine ⟨_, sendMessage src dest r trig s, (exec_send_of_room hd hm hroom src r trig).trans hretire,
    rfl, rfl, rfl, rfl, rfl, fun h => ?_, fun h => ?_, cur_post_setNode_active ..,
    onlyNodeChanged_setNode (s.post _) s.active _⟩
  · simp only [sendMessage, messageAddr, h]
  · simp only [sendMessage, messageAddr, h]

/-- Settles O28: the tests of a `SEND`, in the model's order. -/
theorem sendRefusesOrHolds : Obligations.SendRefusesOrHolds := by
  unfold Obligations.SendRefusesOrHolds
  intro s src dest r trig
  refine ⟨fun hd => ?_, fun hd hm => ?_, fun hd hm hroom => ?_⟩
  · simp only [exec, execSend, hd, if_true]
  · simp [exec, execSend, hd, inMesh_eq_false_of_not_nodeExists hm]
  · simp [exec, execSend, hd, inMesh_iff.mpr hm, netFull_of_not_hasRoom hroom]

end Sys2Proof.Machine
end

section
/-! PROOFS. `TRUTH`, `ARITH` and `SHUFL` (spec/43_truth.md, spec/44_arith.md, spec/45_shufl.md): the byte each writes, bit
by bit or as a number. -/

namespace Sys2Proof.Machine

/-! ### `TRUTH` -/

theorem truthByte_bit (o : TruthOrder) (table a b c : Byte) {i : Nat} (hi : i < 8) :
    (truthByte o table a b c).getLsbD i =
      table.getLsbD (truthIndex o (a.getLsbD i) (b.getLsbD i) (c.getLsbD i)) :=
  byteOfBits_bit _ hi

/-- Settles O29: the lookup in each lane, whose index is the order's. -/
theorem truthLooksUpEachBit : Obligations.TruthLooksUpEachBit := by
  unfold Obligations.TruthLooksUpEachBit
  intro s tgt a b c si imm table hc
  obtain ⟨t, ht, hw⟩ := exec_truth_completes hc tgt a b c si imm table
  refine ⟨t, _, ht, hw, fun i hi => ?_⟩
  rw [truthByte_bit _ _ _ _ _ hi]
  refine ⟨fun h => ?_, fun h => ?_, fun h => ?_, fun h => ?_, fun h => ?_, fun h => ?_⟩ <;>
    rw [h] <;> rfl

/-- An index of three bits into a symmetric table, read by how many of the bits are 1. -/
theorem symmetric_index {f : Nat → Bool} (h12 : f 1 = f 2) (h24 : f 2 = f 4) (h35 : f 3 = f 5)
    (h56 : f 5 = f 6) (x y z : Bool) :
    f (4 * x.toNat + 2 * y.toNat + z.toNat) = f (2 ^ (x.toNat + y.toNat + z.toNat) - 1) := by
  cases x <;> cases y <;> cases z <;> simp [h12, h24, h35, h56]

/-- The six orders permute the three bits, which does not change how many are 1 (R191). -/
theorem symmetric_table_lookup {table : Byte} (h12 : table.getLsbD 1 = table.getLsbD 2)
    (h24 : table.getLsbD 2 = table.getLsbD 4) (h35 : table.getLsbD 3 = table.getLsbD 5)
    (h56 : table.getLsbD 5 = table.getLsbD 6) (o : TruthOrder) (a b c : Bool) :
    table.getLsbD (truthIndex o a b c) =
      table.getLsbD (2 ^ (a.toNat + b.toNat + c.toNat) - 1) := by
  cases o <;> rw [truthIndex, symmetric_index h12 h24 h35 h56] <;> ac_rfl

/-- Settles O30. -/
theorem symmetricTablesIgnoreTheOrder : Obligations.SymmetricTablesIgnoreTheOrder := by
  unfold Obligations.SymmetricTablesIgnoreTheOrder
  intro s tgt a b c si imm table hc h12 h24 h35 h56
  obtain ⟨t, ht, hw⟩ := exec_truth_completes hc tgt a b c si imm table
  refine ⟨t, _, ht, hw, fun i hi => ?_⟩
  rw [truthByte_bit _ _ _ _ _ hi]
  exact symmetric_table_lookup h12 h24 h35 h56 ..

/-! ### `ADD` and `SUB` -/

theorem addByte_wrap_toNat (a b : Byte) : (addByte .wrap a b).toNat = (a.toNat + b.toNat) % 256 :=
  BitVec.toNat_ofNat ..

theorem addByte_saturate_toNat (a b : Byte) :
    (addByte .saturate a b).toNat =
      if a.toNat + b.toNat ≤ 255 then a.toNat + b.toNat else 255 := by
  rw [addByte, BitVec.toNat_ofNat]
  split <;> omega

theorem subByte_wrap_toNat (a b : Byte) :
    ((subByte .wrap a b).toNat : Int) = ((a.toNat : Int) - (b.toNat : Int)) % 256 := by
  rw [subByte, BitVec.toNat_ofInt]
  omega

theorem subByte_saturate_toNat (a b : Byte) :
    (subByte .saturate a b).toNat = if b.toNat ≤ a.toNat then a.toNat - b.toNat else 0 := by
  have ha := a.isLt
  rw [subByte, BitVec.toNat_ofNat]
  split <;> omega

theorem exec_add_completes {s : State} (h : s.CanAdvance) (tgt a b : Reg) :
    ∃ t, exec (.add tgt a b) s = .next t ∧
      WritesRegister tgt (addByte s.cfg.arithOverflow (s.cur.reg a) (s.cur.reg b)) s t :=
  writeAndRetire_completes h tgt _

theorem exec_sub_completes {s : State} (h : s.CanAdvance) (tgt a b : Reg) :
    ∃ t, exec (.sub tgt a b) s = .next t ∧
      WritesRegister tgt (subByte s.cfg.arithOverflow (s.cur.reg a) (s.cur.reg b)) s t :=
  writeAndRetire_completes h tgt _

/-- Settles O32. -/
theorem addWrapsOrSaturates : Obligations.AddWrapsOrSaturates := by
  unfold Obligations.AddWrapsOrSaturates
  intro s tgt a b hc
  obtain ⟨t, ht, hw⟩ := exec_add_completes hc tgt a b
  refine ⟨t, _, ht, hw, fun h => ?_, fun h => ?_⟩
  · rw [h, addByte_wrap_toNat]
  · rw [h, addByte_saturate_toNat]

/-- Settles O33. -/
theorem subWrapsOrSaturates : Obligations.SubWrapsOrSaturates := by
  unfold Obligations.SubWrapsOrSaturates
  intro s tgt a b hc
  obtain ⟨t, ht, hw⟩ := exec_sub_completes hc tgt a b
  refine ⟨t, _, ht, hw, fun h => ?_, fun h => ?_⟩
  · rw [h, subByte_wrap_toNat]
  · rw [h, subByte_saturate_toNat]

theorem addByte_subByte_wrap (a b : Byte) : addByte .wrap (subByte .wrap a b) b = a := by
  have ha := a.isLt
  have hsub := subByte_wrap_toNat a b
  refine BitVec.eq_of_toNat_eq ?_
  rw [addByte_wrap_toNat]
  omega

/-- Settles O34: the second instruction finds the difference in `Rt` and `Rb` as it was. -/
theorem addAfterSubRestores : Obligations.AddAfterSubRestores := by
  unfold Obligations.AddAfterSubRestores
  intro s tgt a b hwrap hb hc
  obtain ⟨t, ht, htgt, hother, _, _, _, _, _, _, ⟨_, hcfg, _⟩, _⟩ := exec_sub_completes hc tgt a b
  refine ⟨t, ht, fun hct => ?_⟩
  obtain ⟨u, hu, hreg, _⟩ := exec_add_completes hct tgt tgt b
  refine ⟨u, hu, ?_⟩
  rw [hreg, htgt, hother b hb, hcfg, hwrap, addByte_subByte_wrap]

/-! ### The reductions -/

theorem byte_eq_zero_iff (v : Byte) : v = 0x00#8 ↔ ∀ i < 8, v.getLsbD i = false := by
  refine ⟨fun h i _ => h ▸ BitVec.getLsbD_zero, fun h => BitVec.eq_of_getLsbD_eq fun i hi => ?_⟩
  rw [h i hi, BitVec.getLsbD_zero]

/-- Settles O35: a byte is 0xFF exactly when every bit is 1. -/
theorem andReduction : Obligations.AndReduction := by
  unfold Obligations.AndReduction
  intro s tgt a hc
  obtain ⟨t, ht, hw⟩ := writeAndRetire_completes hc tgt (andReduce (s.cur.reg a))
  refine ⟨t, _, ht, hw, fun h => if_pos ((byte_eq_ones_iff _).mpr h),
    fun ⟨i, hi, h⟩ => if_neg fun hv => ?_⟩
  simp [(byte_eq_ones_iff _).mp hv i hi] at h

/-- Settles O36: a byte is 0x00 exactly when every bit is 0. -/
theorem orReduction : Obligations.OrReduction := by
  unfold Obligations.OrReduction
  intro s tgt a hc
  obtain ⟨t, ht, hw⟩ := writeAndRetire_completes hc tgt (orReduce (s.cur.reg a))
  refine ⟨t, _, ht, hw, fun ⟨i, hi, h⟩ => if_neg fun hv => ?_,
    fun h => if_pos ((byte_eq_zero_iff _).mpr h)⟩
  simp [(byte_eq_zero_iff _).mp hv i hi] at h

/-! ### `SHUFL` -/

theorem shuflByte_bit (sel : Selectors) (v : Byte) {i : Nat} (hi : i < 8) :
    (shuflByte sel v).getLsbD i = v.getLsbD (selectorAt sel i).toNat :=
  byteOfBits_bit _ hi

/-- Settles O37: the gather in each bit, with the selector of that bit. -/
theorem shuffleGathersBits : Obligations.ShuffleGathersBits := by
  unfold Obligations.ShuffleGathersBits
  intro s tgt src sel hc
  obtain ⟨t, ht, hw⟩ := writeAndRetire_completes hc tgt (shuflByte sel (s.cur.reg src))
  refine ⟨t, _, ht, hw, ?_, ?_, ?_, ?_, ?_, ?_, ?_, ?_⟩ <;> exact shuflByte_bit sel _ (by decide)

end Sys2Proof.Machine
end

section
/-! PROOFS. The end of the instruction store (spec/10_state.md section 2, R26): an instruction that would advance past
index 1023. -/

namespace Sys2Proof.Machine

section FallOff
variable {s : State} (hp : s.cur.pc = 1023#10) (hset : s.cfg.pcFallthrough = .refuse)
include hp hset

theorem writeAndRetire_fallOff (tgt : Reg) (v : Byte) :
    writeAndRetire s tgt v = .refused .fallOffEnd :=
  retire_fallOff (show (s.cur.setReg tgt v).pc = 1023#10 from hp) hset

theorem branchNotTaken_fallOff (ctl : BranchCtl) : branchNotTaken s ctl = .refused .fallOffEnd := by
  simp only [branchNotTaken, nextPc_eq_none.mpr ⟨hp, hset⟩]

theorem exec_store_fallOff {src : Reg} {r : ElemRef} {mask v : Byte}
    (hopen : s.DataOpen s.active (elemAddr r s.cur.dflt))
    (h : storedByte s.cfg s.cur (elemAddr r s.cur.dflt) mask (s.cur.reg src) = .ok v) :
    exec (.store src r mask) s = .refused .fallOffEnd := by
  rw [exec_store_of_ok hopen h]
  exact retire_fallOff hp hset

end FallOff

/-- Under `wrap` the successor of the last index is 0. -/
theorem pc_wraps {pc : Index} (hp : pc = 1023#10) : pc + 1#10 = 0#10 := by
  rw [hp]
  rfl

/-- Settles O38: each instruction that would advance reaches its retirement, which is refused; under `wrap` every
retirement leaves the successor. -/
theorem endOfTheInstructionStore : Obligations.EndOfTheInstructionStore := by
  unfold Obligations.EndOfTheInstructionStore
  intro s hp
  refine ⟨fun hset => ⟨?register, ?branch, ?load, ?store, ?send⟩, ?wrap⟩
  case register =>
    intro tgt a b c si imm table sel
    have hfall (v : Byte) := writeAndRetire_fallOff hp hset tgt v
    exact ⟨hfall _, hfall _, hfall _, hfall _, hfall _, hfall _⟩
  case branch =>
    intro i ctl hcond
    rw [exec_of_branchCondition hcond]
    exact branchNotTaken_fallOff hp hset ctl
  case load =>
    intro tgt r v hopen hv
    rw [exec_load_of_ok (readElem_of_value (textRefused_of_dataOpen hopen) hv)]
    exact writeAndRetire_fallOff hp hset tgt v
  case store =>
    rintro src r mask hopen (⟨v, hv⟩ | hall)
    · exact exec_store_fallOff hp hset hopen
        (storedByte_of_value (textRefused_of_dataOpen hopen) hv mask _)
    · exact exec_store_fallOff hp hset hopen
        (storedByte_of_all ((updateMask_eq_all_iff _ _).mpr hall) _)
  case send =>
    intro src dest r trig hd hm hroom
    rw [exec_send_of_room hd hm hroom]
    exact retire_fallOff hp hset
  case wrap =>
    intro _ i t hformat h
    cases exec_next h with
    | register tgt v hi hc ht => right; simp [ht, pc_wraps hp]
    | store src r mask v hi hc ht => right; simp [ht, pc_wraps hp]
    | taken ctl hi hw hn ht => exact absurd (formatOf_of_branchFields hi) hformat
    | notTaken ctl d hi hd hc ht =>
      exact absurd (formatOf_of_branchFields (branchFields_of_condition hi).1) hformat
    | waits ctl hi hp ht => exact .inl ht
    | resumes ctl hi hp ht => exact absurd (hi ▸ rfl) hformat
    | sendHolds src dest r trig hi hd hm hf ht => exact .inl ht
    | sends src dest r trig hi hd hm hf hc ht => right; simp [ht, pc_wraps hp]

end Sys2Proof.Machine
end

section
/-! PROOFS. What each kind of instruction leaves unchanged (spec/10_state.md section 1). -/

namespace Sys2Proof.Machine

section Frames
variable {i : Instr} {s t : State}

theorem formatOf_of_targetRegister {tgt : Reg} (h : targetRegister i = some tgt) :
    formatOf i ≠ .branch := by
  cases i <;> simp [targetRegister] at h <;> simp [formatOf]

/-- An instruction with a target register goes no other way than to write it. -/
theorem exec_register {tgt : Reg} (hi : targetRegister i = some tgt) (h : ExecCases i s t) :
    ∃ v, WritesRegister tgt v s t := by
  cases h with
  | register tgt' v hi' hc ht =>
    obtain rfl : tgt' = tgt := Option.some.inj (hi'.symm.trans hi)
    exact ⟨v, ht ▸ writesRegister_setNode s tgt' v⟩
  | store src r mask v hi' hc ht => subst hi'; cases hi
  | taken ctl hi' hw hn ht =>
    exact absurd (formatOf_of_branchFields hi') (formatOf_of_targetRegister hi)
  | notTaken ctl d hi' hd hc ht =>
    exact absurd (formatOf_of_branchFields (branchFields_of_condition hi').1)
      (formatOf_of_targetRegister hi)
  | waits ctl hi' hp ht => subst hi'; cases hi
  | resumes ctl hi' hp ht => subst hi'; cases hi
  | sendHolds src dest r trig hi' hd hm hf ht => subst hi'; cases hi
  | sends src dest r trig hi' hd hm hf hc ht => subst hi'; cases hi

theorem exec_store {src : Reg} {r : ElemRef} {mask : Byte} (h : ExecCases (.store src r mask) s t) :
    ∃ v, WritesElement (elemAddr r s.cur.dflt) v s t := by
  cases h with
  | store src' r' mask' v hi hc ht =>
    cases hi
    exact ⟨v, ht ▸ writesElement_setNode s _ v⟩
  | register tgt v hi hc ht => cases hi
  | taken ctl hi hw hn ht => cases hi
  | notTaken ctl d hi hd hc ht => cases hi
  | waits ctl hi hp ht => cases hi
  | resumes ctl hi hp ht => cases hi
  | sendHolds src dest r trig hi hd hm hf ht => cases hi
  | sends src dest r trig hi hd hm hf hc ht => cases hi

theorem onlyNodeChanged_refl (id : NodeId) (s : State) : OnlyNodeChanged id s s :=
  ⟨fun _ _ => rfl, rfl, rfl, rfl, rfl⟩

end Frames

/-- Settles O39. -/
theorem registerInstructionsFrame : Obligations.RegisterInstructionsFrame := by
  unfold Obligations.RegisterInstructionsFrame
  intro i tgt s t hi h
  obtain ⟨v, _, hregs, _, hidle, hdflt, hmark, htrig, hstore, hother, hnet⟩ :=
    exec_register hi (exec_next h)
  exact ⟨hregs, hidle, hdflt, hmark, htrig, hstore, hother, hnet⟩

/-- Settles O40: the entry of the element written is `ADDRESS`. -/
theorem storeFrame : Obligations.StoreFrame := by
  unfold Obligations.StoreFrame
  intro src r mask s t h
  obtain ⟨v, ⟨_, hmem, _, hwritten, himem⟩, hregs, _, hidle, hdflt, hmark, htrig, hother, hnet⟩ :=
    exec_store (exec_next h)
  have hentry : (elemAddr r s.cur.dflt).toNat / 4 = r.address.toNat := entryOf_elemAddr r s.cur.dflt
  rw [hentry] at hwritten
  exact ⟨hmem, hwritten, hregs, hidle, hdflt, hmark, htrig, himem, hother, hnet⟩

/-- Settles O41: by the ways a branch can go. -/
theorem branchFrame : Obligations.BranchFrame := by
  unfold Obligations.BranchFrame
  intro i s t hformat h
  cases exec_next h with
  | register tgt v hi hc ht => exact absurd hformat (formatOf_of_targetRegister hi)
  | store src r mask v hi hc ht => subst hi; cases hformat
  | taken ctl hi hw hn ht =>
    subst ht
    rw [cur_setNode_active]
    refine ⟨rfl, ⟨fun _ => rfl, rfl, rfl⟩, onlyNodeChanged_setNode .., rfl, fun _ => rfl,
      fun ctl' hcond => ?_⟩
    obtain rfl : ctl' = ctl :=
      Option.some.inj ((branchFields_of_condition hcond).1.symm.trans hi)
    exact absurd hcond hn
  | notTaken ctl d hi hd hc ht =>
    subst ht
    rw [cur_setNode_active]
    exact ⟨rfl, ⟨fun _ => rfl, rfl, rfl⟩, onlyNodeChanged_setNode .., rfl, fun _ => rfl,
      fun _ _ => ⟨rfl, rfl⟩⟩
  | waits ctl hi hp ht =>
    subst ht
    exact ⟨rfl, sameStorage_refl _, onlyNodeChanged_refl .., rfl, fun _ => rfl, fun _ _ => ⟨rfl, rfl⟩⟩
  | resumes ctl hi hp ht =>
    subst ht
    rw [cur_setNode_active]
    exact ⟨rfl, ⟨fun _ => rfl, rfl, rfl⟩, onlyNodeChanged_setNode .., rfl,
      fun hw => absurd hi (hw ctl), fun ctl' hcond => by subst hi; cases hcond⟩
  | sendHolds src dest r trig hi hd hm hf ht => subst hi; cases hformat
  | sends src dest r trig hi hd hm hf hc ht => subst hi; cases hformat

/-- Settles O42: a `SEND` holds, or posts one message and advances. -/
theorem sendFrame : Obligations.SendFrame := by
  unfold Obligations.SendFrame
  intro src dest r trig s t h
  cases exec_next h with
  | sendHolds src' dest' r' trig' hi hd hm hf ht =>
    subst ht
    exact ⟨rfl, rfl, rfl, rfl, rfl, sameStorage_refl _, onlyNodeChanged_refl .., [],
      (List.append_nil _).symm⟩
  | sends src' dest' r' trig' hi hd hm hf hc ht =>
    subst ht
    rw [cur_post_setNode_active]
    exact ⟨rfl, rfl, rfl, rfl, rfl, ⟨fun _ => rfl, rfl, rfl⟩,
      onlyNodeChanged_setNode (s.post _) s.active _, _, rfl⟩
  | register tgt v hi hc ht => cases hi
  | store src r mask v hi hc ht => cases hi
  | taken ctl hi hw hn ht => cases hi
  | notTaken ctl d hi hd hc ht => cases hi
  | waits ctl hi hp ht => cases hi
  | resumes ctl hi hp ht => cases hi

/-! ### The control state (R30, R33) -/

/-- What the fields of a branch may do to the control state. -/
def ControlChange (ctl : BranchCtl) (s t : State) : Prop :=
  (t.cur.idle = s.cur.idle ∨ (t.cur.idle = true ∧ ctl.idle = true)) ∧
  (t.cur.markAddr = s.cur.markAddr ∨ ctl.mark = true)

theorem controlChange_taken (ctl : BranchCtl) (s : State) {n : Node} (hidle : n.idle = s.cur.idle)
    (hmark : n.markAddr = s.cur.markAddr) :
    ControlChange ctl s (s.setNode s.active (takenNode s.cfg ctl s.ticks n)) := by
  unfold ControlChange
  rw [cur_setNode_active, takenNode_idle, takenNode_markAddr, hidle, hmark]
  cases ctl.idle <;> cases ctl.mark <;> simp

/-- An instruction leaves the control state, or is a branch and changes it with its fields. -/
theorem exec_control {i : Instr} {s t : State} (h : ExecCases i s t) :
    (t.cur.dflt = s.cur.dflt ∧ t.cur.idle = s.cur.idle ∧ t.cur.markAddr = s.cur.markAddr) ∨
      ∃ ctl, branchFields i = some ctl ∧ ControlChange ctl s t := by
  cases h with
  | register tgt v hi hc ht => left; simp [ht]
  | store src r mask v hi hc ht => left; simp [ht]
  | taken ctl hi hw hn ht => exact .inr ⟨ctl, hi, ht ▸ controlChange_taken ctl s rfl rfl⟩
  | notTaken ctl d hi hd hc ht =>
    exact .inr ⟨ctl, (branchFields_of_condition hi).1, by simp [ControlChange, ht]⟩
  | waits ctl hi hp ht => exact .inl (ht ▸ ⟨rfl, rfl, rfl⟩)
  | resumes ctl hi hp ht =>
    exact .inr ⟨ctl, hi ▸ rfl, ht ▸ controlChange_taken ctl s rfl rfl⟩
  | sendHolds src dest r trig hi hd hm hf ht => exact .inl (ht ▸ ⟨rfl, rfl, rfl⟩)
  | sends src dest r trig hi hd hm hf hc ht => left; simp [ht]

theorem beq_one_eq_bit : ∀ b : Bit, (b == 1#1) = b.getLsbD 0 := by decide

/-- The `IDLE` and `MARK` fields are bits 24 and 28 of a branch's word (R84). -/
theorem encode_control_bits {i : Instr} {ctl : BranchCtl} (h : branchFields i = some ctl) :
    (encode i).getLsbD 24 = ctl.idle ∧ (encode i).getLsbD 28 = ctl.mark := by
  have hctl : decodeCtl (encode i) = ctl := by
    cases i <;> simp [branchFields] at h <;> subst h <;>
      simp (disch := omega) only [encode, decodeCtl_encodeCtl, decodeCtl_or_place]
  rw [← hctl]
  simp only [decodeCtl, beq_one_eq_bit]
  simp

/-- Settles O43: a branch alone, and by the fields its word holds. -/
theorem onlyBranchWritesControlState : Obligations.OnlyBranchWritesControlState := by
  unfold Obligations.OnlyBranchWritesControlState
  intro i s t h
  rcases exec_control (exec_next h) with ⟨hdflt, hidle, hmark⟩ | ⟨ctl, hctl, hidle, hmark⟩
  · exact ⟨fun hne => by simp [hdflt, hidle, hmark] at hne, fun hne => absurd hidle hne,
      fun hne => absurd hmark hne⟩
  · obtain ⟨h24, h28⟩ := encode_control_bits hctl
    rw [h24, h28]
    exact ⟨fun _ => formatOf_of_branchFields hctl, hidle.resolve_left, hmark.resolve_left⟩

end Sys2Proof.Machine
end

section
/-! PROOFS. Fetch (spec/20_memory.md section 10, R53, R74, R80): what it answers under each setting, and a data entry as
the word of its four elements (R51). -/

namespace Sys2Proof.Machine

/-! ### A word and its four bytes -/

/-- The bytes of a word in place make it up. -/
theorem word_of_bytes (w : Word) :
    place (w.extractLsb' 24 8) 24 ||| place (w.extractLsb' 16 8) 16 |||
      place (w.extractLsb' 8 8) 8 ||| place (w.extractLsb' 0 8) 0 = w := by
  simp only [place_extract, ← BitVec.and_or_distrib_left]
  have hall : fieldMask 24 8 ||| fieldMask 16 8 ||| fieldMask 8 8 ||| fieldMask 0 8 =
      BitVec.allOnes 32 := by decide
  rw [hall, BitVec.and_allOnes]

theorem bytes_of_word (b3 b2 b1 b0 : Byte) {w : Word}
    (hw : place b3 24 ||| place b2 16 ||| place b1 8 ||| place b0 0 = w) :
    w.extractLsb' 0 8 = b0 ∧ w.extractLsb' 8 8 = b1 ∧ w.extractLsb' 16 8 = b2 ∧
      w.extractLsb' 24 8 = b3 := by
  subst hw
  simp (disch := omega) [extract_place_same, extract_place_apart]

theorem forall_lt_four {P : Nat → Prop} : (∀ k < 4, P k) ↔ P 0 ∧ P 1 ∧ P 2 ∧ P 3 := by
  refine ⟨fun h => ⟨h 0 (by omega), h 1 (by omega), h 2 (by omega), h 3 (by omega)⟩, ?_⟩
  rintro ⟨h0, h1, h2, h3⟩ k hk
  interval_cases k <;> assumption

theorem entryWord_eq_some_iff (m : List Host.Cell) (e : Nat) (w : Word) :
    entryWord m e = some w ↔
      ∀ k < 4, Memory.read m (4 * e + k) = some (w.extractLsb' (8 * k) 8) := by
  rw [forall_lt_four]
  constructor
  · intro h
    unfold entryWord at h
    split at h
    · rename_i b0 b1 b2 b3 h0 h1 h2 h3
      obtain ⟨e0, e1, e2, e3⟩ := bytes_of_word b3 b2 b1 b0 (Option.some.inj h)
      exact ⟨e0 ▸ h0, e1 ▸ h1, e2 ▸ h2, e3 ▸ h3⟩
    · cases h
  · rintro ⟨h0, h1, h2, h3⟩
    rw [Nat.add_zero] at h0
    simp only [entryWord, h0, h1, h2, h3]
    exact congrArg some (word_of_bytes w)

theorem entryWord_eq_none {m : List Host.Cell} {e : Nat}
    (h : ∃ k < 4, Memory.read m (4 * e + k) = none) : entryWord m e = none := by
  obtain ⟨k, hk, hnone⟩ := h
  refine Option.eq_none_iff_forall_ne_some.mpr fun w hw => ?_
  rw [(entryWord_eq_some_iff m e w).mp hw k hk] at hnone
  cases hnone

/-! ### What a fetch answers -/

section Fetch
variable {c : Config} {n : Node}

theorem fetch_of_word {w : Word} (hm : c.memUnified ≠ .unified)
    (hl : lookup n.imem n.pc.toNat = some w) : fetch c n = .ok w := by
  cases h : c.memUnified <;> simp_all [fetch]

theorem fetch_of_no_word (hm : c.memUnified ≠ .unified) (hl : lookup n.imem n.pc.toNat = none) :
    fetch c n = .error (.unwrittenRead (.instruction n.pc)) := by
  cases h : c.memUnified <;> simp_all [fetch]

theorem fetch_of_written (hm : c.memUnified = .unified) (hw : n.pc.toNat ∈ n.written) :
    fetch c n = .error .fetchOfWrittenEntry := by
  simp [fetch, hm, hw]

theorem fetch_of_no_entry (hm : c.memUnified = .unified) (hw : n.pc.toNat ∉ n.written)
    (he : entryWord n.dmem n.pc.toNat = none) :
    fetch c n = .error (.unwrittenRead (.instruction n.pc)) := by
  simp [fetch, hm, hw, he]

theorem fetch_unified_iff (hm : c.memUnified = .unified) (w : Word) :
    fetch c n = .ok w ↔ n.pc.toNat ∉ n.written ∧ entryWord n.dmem n.pc.toNat = some w := by
  by_cases hw : n.pc.toNat ∈ n.written
  · simp [fetch_of_written hm hw, hw]
  · cases he : entryWord n.dmem n.pc.toNat <;> simp [fetch, hm, hw, he]

theorem fetch_store_iff (hm : c.memUnified ≠ .unified) (w : Word) :
    fetch c n = .ok w ↔ lookup n.imem n.pc.toNat = some w := by
  cases hl : lookup n.imem n.pc.toNat with
  | none => simp [fetch_of_no_word hm hl]
  | some u => simp [fetch_of_word hm hl]

theorem fetchInstr_iff (i : Instr) :
    fetchInstr c n = .ok i ↔ ∃ w, fetch c n = .ok w ∧ decode c.rsvd w = .instr i := by
  unfold fetchInstr
  cases fetch c n with
  | error r => simp
  | ok w => cases hd : decode c.rsvd w <;> simp [hd]

theorem fetchInstr_of_error {x : Refusal} (h : fetch c n = .error x) : fetchInstr c n = .error x := by
  simp only [fetchInstr, h]

theorem fetchInstr_of_reserved {w : Word} (h : fetch c n = .ok w)
    (hd : decode c.rsvd w = .reserved w) : fetchInstr c n = .error (.reservedNonZero w) := by
  simp only [fetchInstr, h, hd]

end Fetch

/-- Settles O46: the word of an entry is made up of its four elements. -/
theorem unifiedFetchReadsTheEntry : Obligations.UnifiedFetchReadsTheEntry := by
  unfold Obligations.UnifiedFetchReadsTheEntry
  intro c n w hm hw
  rw [fetch_unified_iff hm, entryWord_eq_some_iff]
  exact (and_iff_right hw).symm

end Sys2Proof.Machine
end

section
/-! PROOFS. The step of a node (spec/00_scope.md R13, spec/60_exceptions.md R238): an idle node wakes or holds, another
runs the instruction it fetches. -/

namespace Sys2Proof.Machine

section NodeStep
variable {s : State} {id : NodeId} {rest : List Move} (hs : s.sched = .node id :: rest)
  (hex : NodeExists s.cfg id)
include hs hex

theorem step_node : step s = nodeStep (s.turnOf id rest) := by
  have hin : inMesh (s.turn (.node id) rest).cfg id = true := inMesh_iff.mpr hex
  simp only [step, hs, runMove, hin, if_true]
  rfl

theorem step_of_instr {i : Instr} (hi : (s.node id).idle = false)
    (hf : fetchInstr s.cfg (s.node id) = .ok i) : step s = exec i (s.turnOf id rest) := by
  simp [step_node hs hex, nodeStep, hi, hf]

theorem step_of_fetch_refused {x : Refusal} (hi : (s.node id).idle = false)
    (hf : fetchInstr s.cfg (s.node id) = .error x) : step s = .refused x := by
  simp [step_node hs hex, nodeStep, hi, hf]

theorem step_idle_holds (hi : (s.node id).idle = true) (hp : (s.node id).trigPend = 0) :
    step s = .next (s.turnOf id rest) := by
  simp [step_node hs hex, nodeStep, hi, hp]

theorem step_idle_wakes (hi : (s.node id).idle = true) (hp : (s.node id).trigPend ≠ 0) :
    step s = .next ((s.turnOf id rest).setNode id ((s.node id).wake s.cfg)) := by
  simp [step_node hs hex, nodeStep, hi, hp]

end NodeStep

/-- Settles O44. -/
theorem stepRunsTheDecodedInstruction : Obligations.StepRunsTheDecodedInstruction := by
  unfold Obligations.StepRunsTheDecodedInstruction
  intro s id w i
  exact ⟨fun rest hs hex hi hf hd => step_of_instr hs hex hi ((fetchInstr_iff i).mpr ⟨w, hf, hd⟩),
    fetch_of_word, fetchInstr_iff i⟩

/-- Settles O45: each ground for a refusal of the fetch, under its setting. -/
theorem fetchRefusals : Obligations.FetchRefusals := by
  unfold Obligations.FetchRefusals
  intro s id rest hs hex hi
  refine ⟨fun w hf hr hmask => ?_, fun hm hl => ?_, fun hm hw he => ?_, fun hm hw => ?_⟩
  · have hclear : ¬ rsvdClear w = true := fun h => hmask ((rsvdClear_iff w).mp h)
    have hd : decode s.cfg.rsvd w = .reserved w := by simp [decode, hr, hclear]
    exact step_of_fetch_refused hs hex hi (fetchInstr_of_reserved hf hd)
  · exact step_of_fetch_refused hs hex hi (fetchInstr_of_error (fetch_of_no_word hm hl))
  · exact step_of_fetch_refused hs hex hi
      (fetchInstr_of_error (fetch_of_no_entry hm hw (entryWord_eq_none he)))
  · exact step_of_fetch_refused hs hex hi (fetchInstr_of_error (fetch_of_written hm hw))

/-- Settles O47: a wake writes the woken node in its place and nothing else. -/
theorem idleNodeWakesOrHolds : Obligations.IdleNodeWakesOrHolds := by
  unfold Obligations.IdleNodeWakesOrHolds
  intro s id rest hs hex hi
  by_cases hp : (s.node id).trigPend = 0
  · exact ⟨_, step_idle_holds hs hex hi hp, rfl, fun _ _ => rfl, fun _ => rfl,
      fun hne => absurd hp hne⟩
  · refine ⟨_, step_idle_wakes hs hex hi hp, rfl,
      fun id' hne => node_setNode_ne (s.turnOf id rest) hne _, fun h0 => absurd h0 hp, fun _ => ?_⟩
    rw [node_setNode_same]
    refine ⟨rfl, rfl, fun hone => consume_trigPend_oneBit hone _, fun hcount => ?_, rfl, rfl, rfl,
      ⟨fun _ => rfl, rfl, rfl⟩⟩
    rw [wake_trigPend, consume_trigPend_count hcount]
    omega

end Sys2Proof.Machine
end

section
/-! PROOFS. The steps of the network and of the host (spec/20_memory.md section 7, spec/60_exceptions.md section 5,
spec/70_reset_and_hazards.md R280). -/

namespace Sys2Proof.Machine

/-! ### What a delivery does to its target (R68) -/

section Receive
variable {c : Config} {m : Message} {keep : Bool} {n : Node}

theorem receive_of_text (ht : textRefused c n (m.addr.resolve n.dflt) = true) :
    receive c m keep n = .error .dataAccessToProgramText := by
  simp only [receive, writeElem_of_text ht]

theorem receive_without_trigger (ht : textRefused c n (m.addr.resolve n.dflt) = false)
    (hm : m.trig = false) :
    receive c m keep n = .ok (n.putElem (m.addr.resolve n.dflt) m.data) := by
  simp [receive, writeElem_of_open ht, hm]

theorem receive_with_trigger (ht : textRefused c n (m.addr.resolve n.dflt) = false)
    (hm : m.trig = true) :
    receive c m keep n =
      receiveTrigger c (running c n) keep (n.putElem (m.addr.resolve n.dflt) m.data) := by
  simp [receive, writeElem_of_open ht, hm]

end Receive

/-! ### What a trigger does (R236, R242) -/

section Trigger
variable {c : Config} {busy keep : Bool} (n : Node)

theorem receiveTrigger_kept (h : busy = false ∨ c.trigWhileRunning = .latch ∨
    (c.trigWhileRunning = .either ∧ keep = true)) :
    receiveTrigger c busy keep n = .ok (n.pend c) := by
  rcases h with h | h | ⟨h, hk⟩
  · simp [receiveTrigger, h]
  · simp [receiveTrigger, h]
  · simp [receiveTrigger, h, hk]

theorem receiveTrigger_lost (hb : busy = true) (h : c.trigWhileRunning = .drop ∨
    (c.trigWhileRunning = .either ∧ keep = false)) :
    receiveTrigger c busy keep n = .ok n := by
  rcases h with h | ⟨h, hk⟩
  · simp [receiveTrigger, hb, h]
  · simp [receiveTrigger, hb, h, hk]

theorem receiveTrigger_refused (hb : busy = true) (h : c.trigWhileRunning = .refuse) :
    receiveTrigger c busy keep n = .error .triggerWhileRunning := by
  simp [receiveTrigger, hb, h]

theorem pend_trigPend_oneBit (h : c.trigCoalesce = .oneBit) : (n.pend c).trigPend = 1 := by
  simp [Node.pend, h]

theorem pend_trigPend_count (h : c.trigCoalesce = .count) :
    (n.pend c).trigPend = n.trigPend + 1 := by
  simp [Node.pend, h]

end Trigger

/-! ### The step that delivers -/

theorem deliverTo_of_ok {s : State} {m : Message} {keep : Bool} {n : Node}
    (hex : NodeExists s.cfg m.target) (hr : receive s.cfg m keep (s.node m.target) = .ok n) :
    deliverTo s m keep = .next (s.setNode m.target n) := by
  simp [deliverTo, inMesh_iff.mpr hex, hr]

theorem deliverTo_of_error {s : State} {m : Message} {keep : Bool} {x : Refusal}
    (hex : NodeExists s.cfg m.target) (hr : receive s.cfg m keep (s.node m.target) = .error x) :
    deliverTo s m keep = .refused x := by
  simp [deliverTo, inMesh_iff.mpr hex, hr]

/-- The state in which the message at place `k` has left the network, before its target has it. -/
def State.taken (s : State) (k : Nat) (keep : Bool) (rest : List Move) : State :=
  { s.turn (.deliver k keep) rest with net := s.net.eraseIdx k }

/-- What a delivery leaves when the message's element is written and `TRIG_PEND` is `p`. -/
theorem delivers_setNode (s : State) (k : Nat) (keep : Bool) (rest : List Move) (m : Message)
    (ea : ElemAddr) (p : Nat) :
    Delivers k m ea s ((s.taken k keep rest).setNode m.target
      { (s.node m.target).putElem ea m.data with trigPend := p }) := by
  unfold Delivers
  rw [node_setNode_same]
  exact ⟨rfl, elementWritten_putElem _ ea m.data, rfl, rfl, rfl, rfl, rfl,
    fun id hne => node_setNode_ne (s.taken k keep rest) hne _, rfl⟩

section Delivery
variable {s : State} {k : Nat} {keep : Bool} {rest : List Move} {m : Message}
  (hs : s.sched = .deliver k keep :: rest) (hk : s.net[k]? = some m)
include hs hk

theorem step_deliver_held (hpass : ¬ s.MayPass k m) :
    step s = .next (s.turn (.deliver k keep) rest) := by
  have hmay : mayDeliver s.cfg.netOrder s.net k m = false :=
    Bool.eq_false_of_not_eq_true fun h => hpass (mayDeliver_iff.mp h)
  simp [step, hs, runMove, deliver, hk, hmay]

variable (hpass : s.MayPass k m)
include hpass

theorem step_deliver : step s = deliverTo (s.taken k keep rest) m keep := by
  have hmay := mayDeliver_iff.mpr hpass
  simp only [step, hs, runMove, deliver, turn_net, turn_cfg, hk, hmay, if_true]
  rfl

variable (hex : NodeExists s.cfg m.target)
include hex

theorem step_deliver_refused {x : Refusal}
    (hr : receive s.cfg m keep (s.node m.target) = .error x) : step s = .refused x :=
  (step_deliver hs hk hpass).trans (deliverTo_of_error hex hr)

theorem step_delivers {ea : ElemAddr} {p : Nat} (hr : receive s.cfg m keep (s.node m.target) =
    .ok { (s.node m.target).putElem ea m.data with trigPend := p }) :
    ∃ t, step s = .next t ∧ Delivers k m ea s t ∧ (t.node m.target).trigPend = p :=
  ⟨_, (step_deliver hs hk hpass).trans (deliverTo_of_ok hex hr),
    delivers_setNode s k keep rest m ea p, by rw [node_setNode_same]⟩

end Delivery

/-- Settles O18: an access of a node, then the write of a delivery, at an entry that holds text. -/
theorem dataAccessToProgramTextIsRefused : Obligations.DataAccessToProgramTextIsRefused := by
  unfold Obligations.DataAccessToProgramTextIsRefused
  intro s w hm
  refine ⟨fun reg r mask hl => ?_, fun k keep rest m ea hs hk hpass hex hnames hl => ?_⟩
  · rw [← entryOf_elemAddr r s.cur.dflt] at hl
    have ht := textRefused_of_lookup hm hl
    exact ⟨exec_load_of_error (readElem_of_text ht), exec_store_of_text ht reg mask⟩
  · obtain rfl := names_iff.mp hnames
    exact step_deliver_refused hs hk hpass hex (receive_of_text (textRefused_of_lookup hm hl))

/-- Settles O48. -/
theorem deliveryWritesTheElement : Obligations.DeliveryWritesTheElement := by
  unfold Obligations.DeliveryWritesTheElement
  intro s k keep rest m ea hs hk hpass hex htrig hnames hopen
  obtain rfl := names_iff.mp hnames
  exact step_delivers hs hk hpass hex
    (receive_without_trigger (textRefused_of_dataOpen hopen) htrig)

/-- Settles O49: the target has the data; the trigger is refused, kept or lost. -/
theorem deliveryOfATrigger : Obligations.DeliveryOfATrigger := by
  unfold Obligations.DeliveryOfATrigger
  intro s k keep rest m ea hs hk hpass hex htrig hnames hopen
  obtain rfl := names_iff.mp hnames
  have hr : receive s.cfg m keep (s.node m.target) = _ :=
    receive_with_trigger (textRefused_of_dataOpen hopen) htrig
  refine ⟨fun hrun hset => ?_, fun hset => ?_⟩
  · rw [receiveTrigger_refused _ (running_iff.mpr hrun) hset] at hr
    exact step_deliver_refused hs hk hpass hex hr
  · by_cases hkept : ¬ s.IsRunning m.target ∨ s.cfg.trigWhileRunning = .latch ∨
        (s.cfg.trigWhileRunning = .either ∧ keep = true)
    · have hbusy : running s.cfg (s.node m.target) = false ∨ s.cfg.trigWhileRunning = .latch ∨
          (s.cfg.trigWhileRunning = .either ∧ keep = true) :=
        hkept.imp_left fun h => Bool.eq_false_of_not_eq_true fun hb => h (running_iff.mp hb)
      rw [receiveTrigger_kept _ hbusy] at hr
      obtain ⟨t, ht, hdel, hp⟩ := step_delivers hs hk hpass hex hr
      refine ⟨t, ht, hdel, fun hrun hdrop => ?_, fun hrun heither hkeep => ?_, fun _ =>
        ⟨fun hone => ?_, fun hcount => ?_⟩⟩
      · simp [hrun, hdrop] at hkept
      · simp [hrun, heither, hkeep] at hkept
      · rw [hp]; exact pend_trigPend_oneBit _ hone
      · rw [hp]; exact pend_trigPend_count _ hcount
    · have hrun : s.IsRunning m.target := by tauto
      have hlost : s.cfg.trigWhileRunning = .drop ∨
          (s.cfg.trigWhileRunning = .either ∧ keep = false) := by
        cases h : s.cfg.trigWhileRunning <;> simp_all
      rw [receiveTrigger_lost _ (running_iff.mpr hrun) hlost] at hr
      obtain ⟨t, ht, hdel, hp⟩ := step_delivers hs hk hpass hex hr
      exact ⟨t, ht, hdel, fun _ _ => hp, fun _ _ _ => hp, fun h => absurd h hkept⟩

/-- Settles O50: the earlier message of the pair holds the later one back. -/
theorem pairFifoDeliversInOrder : Obligations.PairFifoDeliversInOrder := by
  unfold Obligations.PairFifoDeliversInOrder
  intro s j k keep rest m m' hs horder hjk hj hk hsender htarget
  have hheld : ¬ s.MayPass k m := fun h => h horder j m' hjk hj ⟨hsender, htarget⟩
  exact ⟨_, step_deliver_held hs hk hheld, rfl, fun _ => rfl⟩

/-- Settles O51: the tests of the host's move. -/
theorem hostMoveAddsOneMessage : Obligations.HostMoveAddsOneMessage := by
  unfold Obligations.HostMoveAddsOneMessage
  intro s rest m hs
  refine ⟨fun hhost => ?_, fun hhost hex hfits hroom => ?_⟩
  · have hstep : step s = .next (s.turn (.inject m) rest) := by
      simp [step, hs, runMove, inject, hhost]
    exact ⟨_, hstep, rfl, fun _ => rfl⟩
  · have hfull : (s.turn (.inject m) rest).netFull = false := netFull_iff.mpr hroom
    have hstep : step s = .next ((s.turn (.inject m) rest).post m) := by
      simp [step, hs, runMove, inject, hhost, hasForm_iff.mpr hfits, inMesh_iff.mpr hex, hfull]
    exact ⟨_, hstep, rfl, fun _ => rfl⟩

end Sys2Proof.Machine
end

section
/-! PROOFS. What a step does to one node (spec/10_state.md section 4, R38): nothing, or it is the node's own step, or the
delivery of a message to it. -/

namespace Sys2Proof.Machine

/-- The ways a step of the machine changes the node `id`. -/
inductive NodeCases (s t : State) (id : NodeId) : Prop
  | same (hn : t.node id = s.node id)
  | wakes (hs : s.sched.head? = some (.node id)) (hi : (s.node id).idle = true)
      (hn : t.node id = (s.node id).wake s.cfg)
  | executes (rest : List Move) (i : Instr) (hs : s.sched.head? = some (.node id))
      (hi : (s.node id).idle = false) (hf : fetchInstr s.cfg (s.node id) = .ok i)
      (he : ExecCases i (s.turnOf id rest) t) (hn : t.node id = t.cur)
  | receives (k : Nat) (keep : Bool) (m : Message) (hs : s.sched.head? = some (.deliver k keep))
      (hk : s.net[k]? = some m) (hm : m.target = id)
      (hr : receive s.cfg m keep (s.node id) = .ok (t.node id))

theorem head?_of_eq_cons {α : Type} {l rest : List α} {a : α} (h : l = a :: rest) :
    l.head? = some a :=
  h ▸ rfl

theorem nodeCases {s t : State} (h : step s = .next t) (id : NodeId) : NodeCases s t id := by
  cases step_next h with
  | holds hc hn hm => exact .same (node_of_nodes hc hn id)
  | wakes id' rest hs hin hi hp ht =>
    subst ht
    by_cases hid : id = id'
    · subst hid
      exact .wakes (head?_of_eq_cons hs) hi (node_setNode_same ..)
    · exact .same (node_setNode_ne (s.turnOf id' rest) hid _)
  | executes id' rest i hs hin hi hf he =>
    obtain ⟨_, hactive, hother, _⟩ := exec_frame he
    by_cases hid : id = id'
    · subst hid
      have hn : t.node id = t.cur := by rw [State.cur, hactive, turnOf_active]
      exact .executes rest i (head?_of_eq_cons hs) hi hf he hn
    · exact .same (hother id hid)
  | delivers k keep rest m n hs hk hd hin hr ht =>
    subst ht
    by_cases hid : id = m.target
    · subst hid
      exact .receives k keep m (head?_of_eq_cons hs) hk rfl (by rw [node_setNode_same]; exact hr)
    · exact .same (node_setNode_ne (s.taken k keep rest) hid _)
  | injects m rest hs hh hm hf ht => exact .same (ht ▸ node_post ..)

theorem step_cfg {s t : State} (h : step s = .next t) : t.cfg = s.cfg := by
  cases step_next h with
  | holds hc hn hm => exact hc
  | wakes id rest hs hin hi hp ht => exact ht ▸ rfl
  | executes id rest i hs hin hi hf he => exact (exec_frame he).1
  | delivers k keep rest m n hs hk hd hin hr ht => exact ht ▸ rfl
  | injects m rest hs hh hm hf ht => exact ht ▸ rfl

/-! ### Messages (R66, R67) -/

theorem exec_net {i : Instr} {s t : State} (h : ExecCases i s t) :
    t.net = s.net ∨ ∃ m, t.net = s.net ++ [m] ∧ m.sender = .node s.active := by
  cases h with
  | sends src dest r trig hi hd hm hf hc ht =>
    exact .inr ⟨sendMessage src dest r trig s, ht ▸ rfl, rfl⟩
  | register tgt v hi hc ht => exact .inl (ht ▸ rfl)
  | store src r mask v hi hc ht => exact .inl (ht ▸ rfl)
  | taken ctl hi hw hn ht => exact .inl (ht ▸ rfl)
  | notTaken ctl d hi hd hc ht => exact .inl (ht ▸ rfl)
  | waits ctl hi hp ht => exact .inl (ht ▸ rfl)
  | resumes ctl hi hp ht => exact .inl (ht ▸ rfl)
  | sendHolds src dest r trig hi hd hm hf ht => exact .inl (ht ▸ rfl)

/-- Settles O52: by the ways a step can go. -/
theorem messagesAreNeitherLostNorAltered : Obligations.MessagesAreNeitherLostNorAltered := by
  unfold Obligations.MessagesAreNeitherLostNorAltered
  intro s t h
  cases step_next h with
  | holds hc hn hm => exact .inl hm
  | wakes id rest hs hin hi hp ht => exact .inl (ht ▸ rfl)
  | executes id rest i hs hin hi hf he =>
    refine (exec_net he).imp_right ?_
    rintro ⟨m, hnet, hsender⟩
    exact .inl ⟨m, hnet, .inl ⟨id, head?_of_eq_cons hs, hsender⟩⟩
  | delivers k keep rest m n hs hk hd hin hr ht =>
    obtain ⟨hlt, _⟩ := List.getElem?_eq_some_iff.mp hk
    exact .inr (.inr ⟨k, keep, hlt, head?_of_eq_cons hs, ht ▸ rfl⟩)
  | injects m rest hs hh hm hf ht =>
    exact .inr (.inl ⟨m, ht ▸ rfl, .inr (head?_of_eq_cons hs)⟩)

/-! ### Storage (R36, R38, R74) -/

/-- An instruction leaves the storage of its node, or is a `STORE` and writes the element it names. -/
theorem exec_storage {i : Instr} {s t : State} (h : ExecCases i s t) : SameStorage s.cur t.cur ∨
    ∃ src r mask v, i = .store src r mask ∧ ElementWritten (elemAddr r s.cur.dflt) v s.cur t.cur := by
  cases h with
  | store src r mask v hi hc ht =>
    refine .inr ⟨src, r, mask, v, hi, ?_⟩
    rw [ht, cur_setNode_active]
    exact elementWritten_putElem s.cur _ v
  | sends src dest r trig hi hd hm hf hc ht =>
    rw [ht, cur_post_setNode_active]
    exact .inl (sameStorage_refl s.cur)
  | register tgt v hi hc ht =>
    rw [ht, cur_setNode_active]
    exact .inl (sameStorage_refl s.cur)
  | taken ctl hi hw hn ht =>
    rw [ht, cur_setNode_active]
    exact .inl (sameStorage_refl s.cur)
  | notTaken ctl d hi hd hc ht =>
    rw [ht, cur_setNode_active]
    exact .inl (sameStorage_refl s.cur)
  | resumes ctl hi hp ht =>
    rw [ht, cur_setNode_active]
    exact .inl (sameStorage_refl s.cur)
  | waits ctl hi hp ht => exact .inl (ht ▸ sameStorage_refl s.cur)
  | sendHolds src dest r trig hi hd hm hf ht => exact .inl (ht ▸ sameStorage_refl s.cur)

/-- A delivery writes the message's element (R68). -/
theorem receive_storage {c : Config} {m : Message} {keep : Bool} {n n' : Node}
    (h : receive c m keep n = .ok n') : ElementWritten (m.addr.resolve n.dflt) m.data n n' := by
  obtain ⟨_, rfl | rfl⟩ := receive_ok h <;> exact elementWritten_putElem n _ m.data

/-- What a step does to the storage of a node, and which step it was. -/
theorem step_storage {s t : State} (h : step s = .next t) (id : NodeId) :
    SameStorage (s.node id) (t.node id) ∨
    (∃ src r mask v, s.sched.head? = some (.node id) ∧ (s.node id).idle = false ∧
      fetchInstr s.cfg (s.node id) = .ok (.store src r mask) ∧
      ElementWritten (elemAddr r (s.node id).dflt) v (s.node id) (t.node id)) ∨
    (∃ k keep m, s.sched.head? = some (.deliver k keep) ∧ s.net[k]? = some m ∧ m.target = id ∧
      ElementWritten (m.addr.resolve (s.node id).dflt) m.data (s.node id) (t.node id)) := by
  cases nodeCases h id with
  | same hn => exact .inl (hn ▸ sameStorage_refl _)
  | wakes hs hi hn => exact .inl (hn ▸ ⟨fun _ => rfl, rfl, rfl⟩)
  | executes rest i hs hi hf he hn =>
    rw [hn]
    rcases exec_storage he with hsame | ⟨src, r, mask, v, rfl, hw⟩
    · exact .inl hsame
    · exact .inr (.inl ⟨src, r, mask, v, hs, hi, hf, hw⟩)
  | receives k keep m hs hk hm hr =>
    exact .inr (.inr ⟨k, keep, m, hs, hk, hm, receive_storage hr⟩)

/-- Settles O54: the step that wrote an element, and the element it wrote. -/
theorem onlyStoreAndDeliveryWriteDataMemory : Obligations.OnlyStoreAndDeliveryWriteDataMemory := by
  unfold Obligations.OnlyStoreAndDeliveryWriteDataMemory
  intro s t id a h hne
  have hwritten {ea : ElemAddr} {v : Byte} (hw : ElementWritten ea v (s.node id) (t.node id)) :
      a = ea.toNat := by
    obtain ⟨_, hkeep, _⟩ := hw
    exact not_imp_comm.mp (hkeep a) hne
  rcases step_storage h id with ⟨hsame, _⟩ | ⟨src, r, mask, v, hs, hi, hf, hw⟩ |
    ⟨k, keep, m, hs, hk, hm, hw⟩
  · exact absurd (hsame a) hne
  · exact .inl ⟨hs, hi, src, r, mask, hf, hwritten hw⟩
  · exact .inr ⟨k, keep, m, _, hs, hk, hm, names_iff.mpr rfl, hwritten hw⟩

/-- A word that can still be fetched after a write of one element lies in another entry. -/
theorem fetch_of_elementWritten {c : Config} {n n' : Node} {ea : ElemAddr} {v : Byte} {w w' : Word}
    (hw : fetch c n = .ok w) (hw' : fetch c n' = .ok w') (hn : ElementWritten ea v n n')
    (hpc : n'.pc = n.pc) : w' = w := by
  obtain ⟨_, hkeep, hmem, _, himem⟩ := hn
  by_cases hm : c.memUnified = .unified
  · obtain ⟨_, hread⟩ := (fetch_unified_iff hm w).mp hw
    obtain ⟨hfresh, hread'⟩ := (fetch_unified_iff hm w').mp hw'
    rw [hpc] at hfresh hread'
    have hentry : n.pc.toNat ≠ ea.toNat / 4 := fun he => hfresh (he ▸ hmem)
    rw [entryWord_eq_some_iff] at hread
    have hsame : entryWord n'.dmem n.pc.toNat = some w :=
      (entryWord_eq_some_iff ..).mpr fun k hk => by rw [hkeep _ (by omega), hread k hk]
    exact Option.some.inj (hread'.symm.trans hsame)
  · rw [fetch_store_iff hm] at hw hw'
    rw [hpc, himem, hw] at hw'
    exact (Option.some.inj hw').symm

theorem fetch_of_sameStorage {c : Config} {n n' : Node} {w w' : Word}
    (hw : fetch c n = .ok w) (hw' : fetch c n' = .ok w') (hn : SameStorage n n')
    (hpc : n'.pc = n.pc) : w' = w := by
  obtain ⟨hread, himem, hwritten⟩ := hn
  have hentry : entryWord n'.dmem n.pc.toNat = entryWord n.dmem n.pc.toNat := by
    simp only [entryWord, hread]
  have hfetch : fetch c n' = fetch c n := by
    simp only [fetch, hpc, himem, hwritten, hentry]
  rw [hfetch, hw] at hw'
  exact (Except.ok.inj hw').symm

/-- Settles O53: the storage is as it was, or one element is written, whose entry can no longer be fetched under
`unified`. -/
theorem instructionStoresAndParametersAreConstant :
    Obligations.InstructionStoresAndParametersAreConstant := by
  unfold Obligations.InstructionStoresAndParametersAreConstant
  intro s t h
  have hstorage (id : NodeId) : SameStorage (s.node id) (t.node id) ∨
      ∃ ea v, ElementWritten ea v (s.node id) (t.node id) := by
    rcases step_storage h id with hsame | ⟨_, _, _, _, _, _, _, hw⟩ | ⟨_, _, _, _, _, _, hw⟩
    · exact .inl hsame
    · exact .inr ⟨_, _, hw⟩
    · exact .inr ⟨_, _, hw⟩
  refine ⟨step_cfg h, fun id => ?_, fun id p w w' hw hw' => ?_⟩
  · rcases hstorage id with ⟨_, himem, _⟩ | ⟨_, _, _, _, _, _, himem⟩
    · exact himem
    · exact himem
  · rw [step_cfg h] at hw'
    rcases hstorage id with hsame | ⟨ea, v, hel⟩
    · exact fetch_of_sameStorage hw hw' hsame rfl
    · exact fetch_of_elementWritten hw hw' hel rfl

/-! ### The core of a node (R38) -/

/-- A delivery changes no register and no control state of its target. -/
theorem receive_core {c : Config} {m : Message} {keep : Bool} {n n' : Node}
    (h : receive c m keep n = .ok n') : n'.regs = n.regs ∧ n'.pc = n.pc ∧ n'.idle = n.idle ∧
      n'.dflt = n.dflt ∧ n'.markAddr = n.markAddr := by
  obtain ⟨_, rfl | rfl⟩ := receive_ok h <;> exact ⟨rfl, rfl, rfl, rfl, rfl⟩

/-- Settles O55. -/
theorem onlyItsOwnStepChangesANodesCore : Obligations.OnlyItsOwnStepChangesANodesCore := by
  unfold Obligations.OnlyItsOwnStepChangesANodesCore
  intro s t id h hother
  cases nodeCases h id with
  | same hn => exact hn ▸ ⟨rfl, rfl, rfl, rfl, rfl⟩
  | wakes hs hi hn => exact absurd hs hother
  | executes rest i hs hi hf he hn => exact absurd hs hother
  | receives k keep m hs hk hm hr => exact receive_core hr

/-! ### Triggers (R235, R236) -/

theorem consume_trigPend_le (c : Config) (n : Node) : (n.consume c).trigPend ≤ n.trigPend := by
  cases h : c.trigCoalesce with
  | oneBit => simp [consume_trigPend_oneBit h]
  | count => simp [consume_trigPend_count h]

/-- An instruction that is no `WAIT` leaves `TRIG_PEND`, and a `WAIT` does not raise it. -/
theorem exec_trigPend {i : Instr} {s t : State} (h : ExecCases i s t) :
    t.cur.trigPend = s.cur.trigPend ∨ (t.cur.trigPend ≤ s.cur.trigPend ∧ ∃ ctl, i = .wait ctl) := by
  cases h with
  | resumes ctl hi hp ht =>
    refine .inr ⟨?_, ctl, hi⟩
    rw [ht, cur_setNode_active]
    exact consume_trigPend_le ..
  | register tgt v hi hc ht => left; simp [ht]
  | store src r mask v hi hc ht => left; simp [ht]
  | taken ctl hi hw hn ht => left; simp [ht]
  | notTaken ctl d hi hd hc ht => left; simp [ht]
  | waits ctl hi hp ht => left; rw [ht]
  | sendHolds src dest r trig hi hd hm hf ht => left; rw [ht]
  | sends src dest r trig hi hd hm hf hc ht => left; simp [ht]

/-- A delivery leaves `TRIG_PEND`, or its message has a trigger and makes one pending. -/
theorem receive_trigPend {c : Config} {m : Message} {keep : Bool} {n n' : Node}
    (h : receive c m keep n = .ok n') :
    n'.trigPend = n.trigPend ∨ (m.trig = true ∧ n'.trigPend = (n.pend c).trigPend) := by
  obtain ⟨ht, rfl | rfl⟩ := receive_ok h
  · exact .inl rfl
  · cases hm : m.trig with
    | true => exact .inr ⟨rfl, rfl⟩
    | false =>
      rw [receive_without_trigger ht hm] at h
      exact .inl (congrArg Node.trigPend (Except.ok.inj h)).symm

/-- Where `TRIG_PEND` is one bit under `one_bit`, a trigger made pending does not lower it. -/
theorem le_pend_trigPend {c : Config} {n : Node} (h : n.wf c = true) :
    n.trigPend ≤ (n.pend c).trigPend := by
  obtain ⟨_, _, _, hone⟩ := (node_wf_iff c n).mp h
  cases hc : c.trigCoalesce with
  | oneBit => rw [pend_trigPend_oneBit _ hc]; exact hone hc
  | count => rw [pend_trigPend_count _ hc]; omega

/-- Settles O56: by the ways a step can change the node. -/
theorem triggersComeAndGoAsTheSpecSays : Obligations.TriggersComeAndGoAsTheSpecSays := by
  unfold Obligations.TriggersComeAndGoAsTheSpecSays
  intro s t id h
  cases nodeCases h id with
  | same hn =>
    rw [hn]
    exact ⟨fun hlt => absurd hlt (lt_irrefl _), fun hlt => absurd hlt (lt_irrefl _)⟩
  | wakes hs hi hn =>
    refine ⟨fun _ _ => ⟨hs, .inl hi⟩, fun hlt => absurd hlt (not_lt.mpr ?_)⟩
    rw [hn]
    exact consume_trigPend_le ..
  | executes rest i hs hi hf he hn =>
    rw [hn]
    rcases exec_trigPend he with heq | ⟨hle, ctl, rfl⟩
    · rw [heq]
      exact ⟨fun hlt => absurd hlt (lt_irrefl _), fun hlt => absurd hlt (lt_irrefl _)⟩
    · exact ⟨fun _ _ => ⟨hs, .inr ⟨ctl, hf⟩⟩, fun hlt => absurd hlt (not_lt.mpr hle)⟩
  | receives k keep m hs hk hm hr =>
    rcases receive_trigPend hr with heq | ⟨htrig, heq⟩
    · rw [heq]
      exact ⟨fun hlt => absurd hlt (lt_irrefl _), fun hlt => absurd hlt (lt_irrefl _)⟩
    · exact ⟨fun hlt hinv => absurd hlt (not_lt.mpr (heq ▸ le_pend_trigPend (node_wf hinv id))),
        fun _ => ⟨k, keep, m, hs, hk, hm, htrig⟩⟩

end Sys2Proof.Machine
end

section
/-! PROOFS. Agents that hold and agents that have a step (spec/70_reset_and_hazards.md section 5, rule R277). -/

namespace Sys2Proof.Machine

/-- The three ways a node holds (R11, R67 d). -/
inductive HoldCases (s : State) (id : NodeId) : Prop
  | idle (hi : (s.node id).idle = true) (hp : (s.node id).trigPend = 0)
  | waits (ctl : BranchCtl) (hi : (s.node id).idle = false)
      (hf : fetchInstr s.cfg (s.node id) = .ok (.wait ctl)) (hp : (s.node id).trigPend = 0)
  | sends (src : Reg) (dest : NodeId) (r : ElemRef) (trig : Bool) (hi : (s.node id).idle = false)
      (hf : fetchInstr s.cfg (s.node id) = .ok (.send src dest r trig)) (hd : dest ≠ id)
      (hm : inMesh s.cfg dest = true) (hfull : s.netFull = true)

theorem nodeHolds_iff (s : State) (id : NodeId) : nodeHolds s id = true ↔ HoldCases s id := by
  constructor
  · intro h
    unfold nodeHolds at h
    split at h
    · rename_i hi
      exact .idle hi (by simpa using h)
    · rename_i hi
      have hi : (s.node id).idle = false := by simpa using hi
      split at h
      · rename_i ctl hf
        exact .waits ctl hi hf (by simpa using h)
      · rename_i src dest r trig hf
        simp only [Bool.and_eq_true, decide_eq_true_eq] at h
        obtain ⟨⟨hd, hm⟩, hfull⟩ := h
        exact .sends src dest r trig hi hf hd hm hfull
      · cases h
      · cases h
  · intro h
    cases h with
    | idle hi hp => simp [nodeHolds, hi, hp]
    | waits ctl hi hf hp => simp [nodeHolds, hi, hf, hp]
    | sends src dest r trig hi hf hd hm hfull => simp [nodeHolds, hi, hf, hd, hm, hfull]

/-! ### Steps that change nothing -/

section Nothing
variable {s : State} {rest : List Move}

theorem step_of_nodeHolds {id : NodeId} (hs : s.sched = .node id :: rest)
    (hex : NodeExists s.cfg id) (h : nodeHolds s id = true) :
    step s = .next (s.turnOf id rest) := by
  cases (nodeHolds_iff s id).mp h with
  | idle hi hp => exact step_idle_holds hs hex hi hp
  | waits ctl hi hf hp => exact (step_of_instr hs hex hi hf).trans (exec_wait_of_none hp)
  | sends src dest r trig hi hf hd hm hfull =>
    have hroom : ¬ (s.turnOf id rest).HasRoom := fun hr => by
      have hfree : s.netFull = false := netFull_iff.mpr hr
      rw [hfree] at hfull
      cases hfull
    obtain ⟨_, _, hholds⟩ := sendRefusesOrHolds (s.turnOf id rest) src dest r trig
    exact (step_of_instr hs hex hi hf).trans (hholds hd (inMesh_iff.mp hm) hroom)

theorem step_of_absent {id : NodeId} (hs : s.sched = .node id :: rest)
    (hex : ¬ NodeExists s.cfg id) : step s = .next (s.turn (.node id) rest) := by
  simp [step, hs, runMove, inMesh_eq_false_of_not_nodeExists hex]

theorem step_deliver_none {k : Nat} {keep : Bool} (hs : s.sched = .deliver k keep :: rest)
    (hk : s.net[k]? = none) : step s = .next (s.turn (.deliver k keep) rest) := by
  simp [step, hs, runMove, deliver, hk]

end Nothing

/-- Settles O58: by the move that is next. -/
theorem nothingMovesInAQuiescentState : Obligations.NothingMovesInAQuiescentState := by
  unfold Obligations.NothingMovesInAQuiescentState
  rintro s ⟨hnodes, hnet⟩ hhost
  cases hs : s.sched with
  | nil => exact ⟨s, by simp only [step, hs], rfl, fun _ => rfl⟩
  | cons m rest =>
    cases m with
    | node id =>
      by_cases hex : NodeExists s.cfg id
      · exact ⟨_, step_of_nodeHolds hs hex (hnodes id hex), rfl, fun _ => rfl⟩
      · exact ⟨_, step_of_absent hs hex, rfl, fun _ => rfl⟩
    | deliver k keep => exact ⟨_, step_deliver_none hs (by simp [hnet]), rfl, fun _ => rfl⟩
    | inject m => exact absurd (head?_of_eq_cons hs) (hhost m)

/-! ### Steps of agents that do not hold -/

theorem mayPass_oldest (s : State) (m : Message) : s.MayPass 0 m :=
  fun _ _ _ hj => absurd hj (Nat.not_lt_zero _)

/-- The oldest message may always be delivered: the delivery is refused or removes it. -/
theorem step_oldest {s : State} {keep : Bool} (hs : s.sched.head? = some (.deliver 0 keep))
    (hnet : s.net ≠ []) :
    (∃ x, step s = .refused x) ∨ ∃ t, step s = .next t ∧ t.net = s.net.tail := by
  obtain ⟨rest, hs⟩ := List.head?_eq_some_iff.mp hs
  obtain ⟨m, net, hcons⟩ := List.exists_cons_of_ne_nil hnet
  have hk : s.net[0]? = some m := by rw [hcons]; rfl
  have hstep := step_deliver hs hk (mayPass_oldest s m)
  have htail : (s.taken 0 keep rest).net = s.net.tail := List.eraseIdx_zero
  by_cases hex : NodeExists s.cfg m.target
  · cases hr : receive s.cfg m keep (s.node m.target) with
    | error x => exact .inl ⟨x, hstep.trans (deliverTo_of_error hex hr)⟩
    | ok n => exact .inr ⟨_, hstep.trans (deliverTo_of_ok hex hr), htail⟩
  · have hin := inMesh_eq_false_of_not_nodeExists hex
    exact .inl ⟨.sendOutsideMesh, by simp [hstep, deliverTo, State.taken, hin]⟩

/-- An instruction with branch fields is a jump, a wait or a conditional branch. -/
theorem branchFields_cases {i : Instr} {ctl : BranchCtl} (s : State) (h : branchFields i = some ctl) :
    i = .jump ctl ∨ i = .wait ctl ∨ ∃ b, branchCondition s i = some (ctl, b) := by
  cases i <;> simp_all [branchFields, branchCondition]

theorem takesBranch_of_taken {i : Instr} {ctl : BranchCtl} {s : State}
    (hi : branchFields i = some ctl) (hw : i ≠ .wait ctl)
    (hn : branchCondition s i ≠ some (ctl, false)) : TakesBranch ctl i s := by
  rcases branchFields_cases s hi with hjump | hwait | ⟨b, hb⟩
  · exact .inl hjump
  · exact absurd hwait hw
  · cases b with
    | true => exact .inr (.inr hb)
    | false => exact absurd hb hn

theorem consume_trigPend_ne {n : Node} (c : Config) (h : n.trigPend ≠ 0) :
    (n.consume c).trigPend ≠ n.trigPend := by
  cases hc : c.trigCoalesce with
  | oneBit => rw [consume_trigPend_oneBit hc]; exact h.symm
  | count => rw [consume_trigPend_count hc]; omega

/-- An instruction of a node that does not hold changes the node or the network, or is a taken branch to its own
index. -/
theorem exec_changes {i : Instr} {s t : State} (h : ExecCases i s t)
    (hwait : ∀ ctl, i = .wait ctl → s.cur.trigPend ≠ 0)
    (hsend : ∀ src dest r trig, i = .send src dest r trig → dest ≠ s.active →
      inMesh s.cfg dest = true → s.netFull = false) :
    t.cur ≠ s.cur ∨ t.net ≠ s.net ∨ ∃ ctl, TakesBranch ctl i s ∧ ctl.target = s.cur.pc := by
  have hpc (h : t.cur.pc ≠ s.cur.pc) : t.cur ≠ s.cur := fun he => h (congrArg Node.pc he)
  cases h with
  | register tgt v hi hc ht => exact .inl (hpc (by simp [ht]))
  | store src r mask v hi hc ht => exact .inl (hpc (by simp [ht]))
  | taken ctl hi hw hn ht =>
    by_cases htgt : ctl.target = s.cur.pc
    · exact .inr (.inr ⟨ctl, takesBranch_of_taken hi hw hn, htgt⟩)
    · exact .inl (hpc (by simpa [ht] using htgt))
  | notTaken ctl d hi hd hc ht => exact .inl (hpc (by simp [ht]))
  | waits ctl hi hp ht => exact absurd hp (hwait ctl hi)
  | resumes ctl hi hp ht =>
    refine .inl fun he => consume_trigPend_ne s.cfg hp ?_
    rw [ht, cur_setNode_active] at he
    exact (takenNode_trigPend ..).symm.trans (congrArg Node.trigPend he)
  | sendHolds src dest r trig hi hd hm hf ht =>
    rw [hsend src dest r trig hi hd hm] at hf
    cases hf
  | sends src dest r trig hi hd hm hf hc ht => exact .inr (.inl (by simp [ht]))

/-- The step of a node that does not hold is refused, wakes the node, or is an instruction of `exec_changes`. -/
theorem step_of_not_holding {s : State} {id : NodeId} {rest : List Move}
    (hs : s.sched = .node id :: rest) (hex : NodeExists s.cfg id) (h : ¬ HoldCases s id) :
    (∃ x, step s = .refused x) ∨ ∃ t, step s = .next t ∧
      (t.node id ≠ s.node id ∨ t.net ≠ s.net ∨ ∃ i ctl, fetchInstr s.cfg (s.node id) = .ok i ∧
        TakesBranch ctl i { s with active := id } ∧ ctl.target = (s.node id).pc) := by
  cases hi : (s.node id).idle with
  | true =>
    have hp : (s.node id).trigPend ≠ 0 := fun hp => h (.idle hi hp)
    refine .inr ⟨_, step_idle_wakes hs hex hi hp, .inl fun he => ?_⟩
    rw [node_setNode_same] at he
    have hawake : (s.node id).idle = false := (congrArg Node.idle he).symm
    rw [hi] at hawake
    cases hawake
  | false =>
    cases hf : fetchInstr s.cfg (s.node id) with
    | error x => exact .inl ⟨x, step_of_fetch_refused hs hex hi hf⟩
    | ok i =>
      have hstep := step_of_instr hs hex hi hf
      cases hexec : exec i (s.turnOf id rest) with
      | fault x => cases x
      | refused x => exact .inl ⟨x, hstep.trans hexec⟩
      | next t =>
        have hcases := exec_next hexec
        have hnode : t.node id = t.cur := by
          obtain ⟨_, hactive, _⟩ := exec_frame hcases
          rw [State.cur, hactive, turnOf_active]
        have hchange := exec_changes hcases
          (fun ctl hw hp => h (.waits ctl hi (hw ▸ hf) hp))
          (fun src dest r trig hsend hd hm => Bool.eq_false_of_not_eq_true fun hfull =>
            h (.sends src dest r trig hi (hsend ▸ hf) hd hm hfull))
        rw [← hnode] at hchange
        refine .inr ⟨t, hstep.trans hexec, hchange.imp_right (Or.imp_right ?_)⟩
        rintro ⟨ctl, htaken, htgt⟩
        exact ⟨i, ctl, rfl, htaken, htgt⟩

theorem nodeHolds_of_waiting {s : State} {id : NodeId} (hp : (s.node id).trigPend = 0)
    (h : (s.node id).idle = true ∨ ∃ ctl, fetchInstr s.cfg (s.node id) = .ok (.wait ctl)) :
    nodeHolds s id = true := by
  refine (nodeHolds_iff s id).mpr ?_
  cases hi : (s.node id).idle with
  | true => exact .idle hi hp
  | false =>
    obtain ⟨ctl, hf⟩ := h.resolve_left (by simp [hi])
    exact .waits ctl hi hf hp

/-- Settles O57: a node that does not hold, the oldest message, then final and stuck states as quiescent ones. -/
theorem anAgentThatDoesNotHoldHasAStep : Obligations.AnAgentThatDoesNotHoldHasAStep := by
  unfold Obligations.AnAgentThatDoesNotHoldHasAStep
  intro s
  refine ⟨fun id hs hex hholds => ?_, fun keep hs hnet => step_oldest hs hnet,
    fun ⟨hnodes, hnet⟩ hhost => ?_, fun id hex hawake hnet hwaiting => ⟨⟨?_, hnet⟩, ?_⟩⟩
  · obtain ⟨rest, hs⟩ := List.head?_eq_some_iff.mp hs
    refine step_of_not_holding hs hex fun h => ?_
    rw [(nodeHolds_iff s id).mpr h] at hholds
    cases hholds
  · have hquiet : s.Quiescent := ⟨fun id hex => by
      obtain ⟨hi, hp⟩ := hnodes id hex
      exact nodeHolds_of_waiting hp (.inl hi), hnet⟩
    exact nothingMovesInAQuiescentState s hquiet hhost
  · intro id' hex'
    obtain ⟨hp, hidle⟩ := hwaiting id' hex'
    exact nodeHolds_of_waiting hp hidle
  · rintro ⟨hnodes, _⟩
    obtain ⟨hi, _⟩ := hnodes id hex
    rw [hi] at hawake
    cases hawake

end Sys2Proof.Machine
end

section
/-! PROOFS. Weak fairness (spec/70_reset_and_hazards.md section 4, rule R276): every move of a repeated interleaving is
made again and again, the oldest messages leave one by one, and an idle node with a trigger stays so until it
wakes. -/

namespace Sys2Proof.Machine

/-! ### A repeated interleaving -/

section Steps
variable {run : Nat → State} (hrun : ∀ n, step (run n) = .next (run (n + 1)))
include hrun

/-- A move in the list is made at last: it comes one place nearer with each step. -/
theorem move_comes_first {m : Move} : ∀ (pre post : List Move) (n : Nat),
    (run n).sched = pre ++ m :: post → ∃ k, n ≤ k ∧ (run k).sched.head? = some m := by
  intro pre
  induction pre with
  | nil => exact fun post n h => ⟨n, le_rfl, by rw [h]; rfl⟩
  | cons a pre ih =>
    intro post n h
    have hnext : (run (n + 1)).sched = pre ++ m :: (post ++ [a]) := by
      rw [step_sched h (hrun n)]
      simp
    obtain ⟨k, hk, hfirst⟩ := ih (post ++ [a]) (n + 1) hnext
    exact ⟨k, by omega, hfirst⟩

theorem mem_sched_run (m : Move) (n : Nat) : m ∈ (run n).sched ↔ m ∈ (run 0).sched := by
  induction n with
  | zero => exact Iff.rfl
  | succ n ih => exact (mem_sched_step (hrun n) m).trans ih

theorem cfg_run (n : Nat) : (run n).cfg = (run 0).cfg := by
  induction n with
  | zero => rfl
  | succ n ih => exact (step_cfg (hrun n)).trans ih

/-- A move of the interleaving is made after every step. -/
theorem move_recurs {m : Move} (h : m ∈ (run 0).sched) (n : Nat) :
    ∃ k, n ≤ k ∧ (run k).sched.head? = some m := by
  obtain ⟨pre, post, hsplit⟩ := List.append_of_mem ((mem_sched_run hrun m n).mpr h)
  exact move_comes_first hrun pre post n hsplit

end Steps

/-! ### A message on its way -/

/-- A message in flight is delivered by a step, or stays in flight with no more messages before it. -/
theorem step_message {s t : State} (h : step s = .next t) {p : Nat} {m : Message}
    (hp : s.net[p]? = some m) : s.DeliversNext m ∨ ∃ q ≤ p, t.net[q]? = some m := by
  have hsame (hnet : t.net = s.net) : ∃ q ≤ p, t.net[q]? = some m := ⟨p, le_rfl, hnet ▸ hp⟩
  have happend {m' : Message} (hnet : t.net = s.net ++ [m']) : ∃ q ≤ p, t.net[q]? = some m := by
    obtain ⟨hlt, _⟩ := List.getElem?_eq_some_iff.mp hp
    exact ⟨p, le_rfl, by rw [hnet, List.getElem?_append_left hlt, hp]⟩
  cases step_next h with
  | holds hc hn hm => exact .inr (hsame hm)
  | wakes id rest hs hin hi hw ht => exact .inr (hsame (ht ▸ rfl))
  | executes id rest i hs hin hi hf he =>
    rcases exec_net he with hnet | ⟨m', hnet, _⟩
    · exact .inr (hsame hnet)
    · exact .inr (happend hnet)
  | injects m' rest hs hh hm hf ht => exact .inr (happend (show t.net = s.net ++ [m'] from ht ▸ rfl))
  | delivers k keep rest m' n hs hk hd hin hr ht =>
    have hnet : t.net = s.net.eraseIdx k := ht ▸ rfl
    rcases lt_trichotomy k p with hlt | rfl | hlt
    · refine .inr ⟨p - 1, by omega, ?_⟩
      rw [hnet, List.getElem?_eraseIdx_of_ge (by omega), Nat.sub_add_cancel (by omega), hp]
    · obtain rfl : m' = m := Option.some.inj (hk.symm.trans hp)
      exact .inl ⟨k, keep, head?_of_eq_cons hs, hk, mayDeliver_iff.mp hd⟩
    · exact .inr ⟨p, le_rfl, by rw [hnet, List.getElem?_eraseIdx_of_lt hlt, hp]⟩

section Messages
variable {run : Nat → State} (hrun : ∀ n, step (run n) = .next (run (n + 1)))
include hrun

theorem message_on_its_way {n p : Nat} {m : Message} (hp : (run n).net[p]? = some m) {k : Nat}
    (hk : n ≤ k) :
    (∃ j, n ≤ j ∧ (run j).DeliversNext m) ∨ ∃ q ≤ p, (run k).net[q]? = some m := by
  induction k, hk using Nat.le_induction with
  | base => exact .inr ⟨p, le_rfl, hp⟩
  | succ k hk ih =>
    rcases ih with hdone | ⟨q, hq, hm⟩
    · exact .inl hdone
    · rcases step_message (hrun k) hm with hnow | ⟨q', hq', hm'⟩
      · exact .inl ⟨k, hk, hnow⟩
      · exact .inr ⟨q', hq'.trans hq, hm'⟩

/-- With the delivery of the oldest made again and again, the messages before one leave, and then it does. -/
theorem message_delivered {keep : Bool} (hmove : .deliver 0 keep ∈ (run 0).sched) {m : Message}
    (p : Nat) : ∀ n, (run n).net[p]? = some m → ∃ k, n ≤ k ∧ (run k).DeliversNext m := by
  induction p using Nat.strong_induction_on with
  | _ p ih =>
    intro n hp
    obtain ⟨k, hnk, hfirst⟩ := move_recurs hrun hmove n
    rcases message_on_its_way hrun hp hnk with hdone | ⟨q, hq, hm⟩
    · exact hdone
    · cases q with
      | zero => exact ⟨k, hnk, 0, keep, hfirst, hm, mayPass_oldest _ m⟩
      | succ q =>
        have hne : (run k).net ≠ [] := fun hnil => by simp [hnil] at hm
        have htail : (run (k + 1)).net = (run k).net.tail := by
          rcases step_oldest hfirst hne with ⟨x, hx⟩ | ⟨t, ht, hnet⟩
          · rw [hrun k] at hx
            cases hx
          · rw [hrun k] at ht
            injection ht with ht
            rw [ht, hnet]
        have hnext : (run (k + 1)).net[q]? = some m := by
          rw [htail, List.getElem?_tail, hm]
        obtain ⟨j, hj, hdone⟩ := ih q (by omega) (k + 1) hnext
        exact ⟨j, by omega, hdone⟩

theorem weaklyFair_of_everyAgentMoves (h : (run 0).EveryAgentMoves) : WeaklyFair run := by
  obtain ⟨hnodes, keep, hmove⟩ := h
  refine ⟨fun n id henabled => ?_, fun n m hm => ?_⟩
  · obtain ⟨hex, _⟩ := henabled n le_rfl
    rw [cfg_run hrun n] at hex
    exact move_recurs hrun (hnodes id hex) n
  · obtain ⟨p, hp⟩ := List.mem_iff_getElem?.mp hm
    exact message_delivered hrun hmove p n hp

end Messages

/-! ### An idle node with a trigger pending -/

/-- A node of the mesh that is idle with a trigger pending and wakes at `a`. -/
def State.Wakeable (s : State) (id : NodeId) (a : Index) : Prop :=
  NodeExists s.cfg id ∧ (s.node id).idle = true ∧ (s.node id).trigPend ≠ 0 ∧
    (s.node id).markAddr = a

theorem nodeHolds_of_wakeable {s : State} {id : NodeId} {a : Index} (h : s.Wakeable id a) :
    nodeHolds s id = false := by
  obtain ⟨_, hi, hp, _⟩ := h
  simp [nodeHolds, hi, hp]

theorem pend_trigPend_ne_zero (c : Config) (n : Node) : (n.pend c).trigPend ≠ 0 := by
  cases hc : c.trigCoalesce with
  | oneBit => rw [pend_trigPend_oneBit _ hc]; exact one_ne_zero
  | count => rw [pend_trigPend_count _ hc]; omega

/-- Only its own step makes such a node anything else (R38, R235). -/
theorem wakeable_step {s t : State} {id : NodeId} {a : Index} (h : step s = .next t)
    (hother : ¬ s.NodeMoves id) (hw : s.Wakeable id a) : t.Wakeable id a := by
  obtain ⟨hex, hi, hp, ha⟩ := hw
  refine ⟨step_cfg h ▸ hex, ?_⟩
  cases nodeCases h id with
  | same hn => rw [hn]; exact ⟨hi, hp, ha⟩
  | wakes hs _ _ => exact absurd hs hother
  | executes _ _ hs _ _ _ _ => exact absurd hs hother
  | receives k keep m hs hk hm hr =>
    obtain ⟨_, _, hidle, _, hmark⟩ := receive_core hr
    refine ⟨hidle.trans hi, ?_, hmark.trans ha⟩
    rcases receive_trigPend hr with heq | ⟨_, heq⟩
    · rw [heq]; exact hp
    · rw [heq]; exact pend_trigPend_ne_zero _ _

/-- The step of such a node wakes it at `MARK_ADDR` (R238). -/
theorem wakeable_wakes {s t : State} {id : NodeId} {a : Index} (h : step s = .next t)
    (hmoves : s.NodeMoves id) (hw : s.Wakeable id a) :
    (t.node id).idle = false ∧ (t.node id).pc = a := by
  obtain ⟨hex, hi, hp, rfl⟩ := hw
  obtain ⟨rest, hs⟩ := List.head?_eq_some_iff.mp hmoves
  rw [step_idle_wakes hs hex hi hp] at h
  injection h with h
  rw [← h, node_setNode_same]
  exact ⟨rfl, rfl⟩

section Waking
variable {run : Nat → State} (hrun : IsRun run) {id : NodeId} {a : Index} {n : Nat}
include hrun

/-- Such a node stays so until it moves. -/
theorem wakeable_until_it_moves (hw : (run n).Wakeable id a) {k : Nat} (hk : n ≤ k)
    (hnone : ∀ j, n ≤ j → j < k → ¬ (run j).NodeMoves id) : (run k).Wakeable id a := by
  induction k, hk using Nat.le_induction with
  | base => exact hw
  | succ k hk ih =>
    obtain ⟨moves, hstep⟩ := hrun k
    have hprev := ih fun j hj hjk => hnone j hj (by omega)
    have hnext : State.Wakeable { run (k + 1) with sched := moves } id a :=
      wakeable_step hstep (hnone k hk (by omega)) hprev
    exact hnext

theorem wakeable_moves (hfair : WeaklyFair run) (hw : (run n).Wakeable id a) :
    ∃ k, n ≤ k ∧ (run k).NodeMoves id := by
  by_contra hnone
  have hnever (j : Nat) (hj : n ≤ j) : ¬ (run j).NodeMoves id := fun h => hnone ⟨j, hj, h⟩
  obtain ⟨henabled, _⟩ := hfair
  refine hnone (henabled n id fun k hk => ?_)
  have hstill := wakeable_until_it_moves hrun hw hk fun j hj _ => hnever j hj
  exact ⟨hstill.1, nodeHolds_of_wakeable hstill⟩

theorem wakeable_wakes_at_last (hfair : WeaklyFair run) (hw : (run n).Wakeable id a) :
    ∃ k, n ≤ k ∧ (run k).NodeMoves id ∧ ((run (k + 1)).node id).idle = false ∧
      ((run (k + 1)).node id).pc = a := by
  classical
  have hmoves := wakeable_moves hrun hfair hw
  obtain ⟨hk, hfirst⟩ := Nat.find_spec hmoves
  have hbefore (j : Nat) (hj : n ≤ j) (hlt : j < Nat.find hmoves) : ¬ (run j).NodeMoves id :=
    fun h => Nat.find_min hmoves hlt ⟨hj, h⟩
  obtain ⟨moves, hstep⟩ := hrun (Nat.find hmoves)
  obtain ⟨hawake, hpc⟩ := wakeable_wakes hstep hfirst (wakeable_until_it_moves hrun hw hk hbefore)
  exact ⟨_, hk, hfirst, hawake, hpc⟩

end Waking

/-- Settles O60: every agent's move recurs; and fairness makes an idle node move, which wakes it. -/
theorem runsInWhichEveryAgentMovesAreWeaklyFair :
    Obligations.RunsInWhichEveryAgentMovesAreWeaklyFair := by
  unfold Obligations.RunsInWhichEveryAgentMovesAreWeaklyFair
  intro run
  exact ⟨fun hrun hagents => weaklyFair_of_everyAgentMoves hrun hagents,
    fun hrun hfair n id hex hi hp => wakeable_wakes_at_last hrun hfair ⟨hex, hi, hp, rfl⟩⟩

end Sys2Proof.Machine
end
